-- ==== Sys2Proof/Word.lean ====
section
/-! DEFINITION. The word types of the block: bytes, `u32`, `u64` (R6, R12). -/

namespace Sys2Proof

/-- A byte of a byte image, a payload or an entropy answer (R44). -/
abbrev Byte := BitVec 8

/-- `u32`: a buffer word, a step output word, the sampler's operand and result (R6). -/
abbrev U32 := BitVec 32

/-- `u64`: one lane of a state vector, or a command word (R6, R60). -/
abbrev U64 := BitVec 64

end Sys2Proof
end

