-- ==== Sys2Proof/Config.lean ====
section
/-! DEFINITION. What an implementation fixes (R8) and the fixed constants of the algorithm (R10). The model has no free
value here: the one thing the spec leaves to the environment, the entropy answers, is an input held in the state. -/

namespace Sys2Proof

/-- The lane count W that `State.reset` and `decodeTableWord` are built with. The spec leaves W OPEN (R8, D10); every
definition and statement of the model is for any W, which a state carries as the number of its lane-columns.
DESIGN CHOICE (log 1): 1, the least value R8 allows. -/
def Config.lanes : Nat := 1

/-- The left shift of step line 2 (R10, R80). -/
def Config.shiftAmount : Nat := 17

/-- The rotate of step line 5 (R10, R80). -/
def Config.rotateAmount : Nat := 45

/-- The bound of SEED's warm-up draw (R10, R102). -/
def Config.warmUpMax : U32 := 32767

end Sys2Proof
end

