-- ==== Sys2Proof/Syntax.lean ====
section
/-! DEFINITION. The commands of the block, one constructor per row of the opcode table (R63, R65), and the raw
transaction a host puts on the command port (R65). -/

namespace Sys2Proof

/-- The command type `Command(W)` of R65. W enters only through the payload's length, which `Instr.wf` checks. -/
inductive Instr where
  /-- SEED (OPC 0x01, R102). -/
  | seed
  /-- SAMPLE (OPC 0x02, R95); `max` is the command word's IMM field, unchanged (R62). -/
  | sample (max : U32)
  /-- STEP (OPC 0x03, R85). -/
  | step
  /-- LOAD_STATE (OPC 0x04, R105); `payload` is the byte images of S0, S1, S2, S3, in that order (R45). -/
  | loadState (payload : List Byte)
  /-- READ_STATE (OPC 0x05, R107). -/
  | readState
  deriving DecidableEq, Repr

/-- A raw transaction: a 64-bit command word and a payload (R60, R65). It need not be a command. -/
structure Transaction where
  cmd : U64
  payload : List Byte
  deriving DecidableEq, Repr

end Sys2Proof
end

