-- ==== Sys2Proof/WellFormed.lean ====
section
/-! DEFINITION. Which terms of `Instr` are commands of a block with W lanes: the payload has the length the opcode
fixes (R48, R65). Every value of SAMPLE's `max` is legal (R68), so nothing else is checked. -/

namespace Sys2Proof

/-- The payload length of a command on a block with `W` lanes: 32W bytes for LOAD_STATE, none otherwise (R63, R65). -/
def Instr.payloadSize (W : Nat) : Instr → Nat
  | .seed => 0
  | .sample _ => 0
  | .step => 0
  | .loadState _ => 32 * W
  | .readState => 0

/-- The payload a command carries (R65). -/
def Instr.payload : Instr → List Byte
  | .seed => []
  | .sample _ => []
  | .step => []
  | .loadState p => p
  | .readState => []

/-- A command of a block with `W` lanes: its payload has the length its opcode fixes (R65). -/
def Instr.wf (W : Nat) (i : Instr) : Bool :=
  i.payload.length == i.payloadSize W

end Sys2Proof
end

