-- ==== Sys2Proof/Decode.lean ====
section
/-! DEFINITION. Decoding a raw transaction to a command (R61 to R68), total and rejecting by name; the encoder; and the
byte-serial form of a transaction (R62). -/

namespace Sys2Proof

/-! ### Byte order: least significant byte first (R44, R62) -/

/-- The first `n` bytes of `x`, least significant byte first: byte m is `x[8m+7:8m]`. -/
def leBytes {w : Nat} (n : Nat) (x : BitVec w) : List Byte :=
  (List.range n).map fun m => x.extractLsb' (8 * m) 8

/-- Eight bytes as one `u64`, `b0` being the least significant: `b7 ++ ... ++ b1 ++ b0` (R44). -/
def u64OfBytes (b0 b1 b2 b3 b4 b5 b6 b7 : Byte) : U64 :=
  b7 ++ b6 ++ b5 ++ b4 ++ b3 ++ b2 ++ b1 ++ b0

/-! ### Fields of CMD64 (R61) -/

/-- OPC = CMD[7:0]. -/
def opcOf (cmd : U64) : BitVec 8 := cmd.extractLsb' 0 8

/-- RSV = CMD[31:8]. -/
def rsvOf (cmd : U64) : BitVec 24 := cmd.extractLsb' 8 24

/-- IMM = CMD[63:32]. -/
def immOf (cmd : U64) : U32 := cmd.extractLsb' 32 32

/-- A command word from its opcode and immediate, RSV being 0 (R61). -/
def commandWord (opc : BitVec 8) (imm : U32) : U64 := imm ++ (0 : BitVec 24) ++ opc

/-! ### Decoding -/

/-- The decode algorithm of R67, line for line. `none` is `raise IllegalCommand(cmd)`. -/
def decodeWord (cmd : U64) (payload : List Byte) : Option Instr :=
  if rsvOf cmd ≠ 0 then none
  else if opcOf cmd = 0x01 then (if immOf cmd = 0 then some .seed else none)
  else if opcOf cmd = 0x02 then some (.sample (immOf cmd))
  else if opcOf cmd = 0x03 then (if immOf cmd = 0 then some .step else none)
  else if opcOf cmd = 0x04 then (if immOf cmd = 0 then some (.loadState payload) else none)
  else if opcOf cmd = 0x05 then (if immOf cmd = 0 then some .readState else none)
  else none

/-- What the decoder says of a raw transaction. -/
inductive Decoded where
  /-- A command. -/
  | command (i : Instr)
  /-- A command word of the illegal list of R67. The block answers it with the ILLEGAL response (R121). -/
  | illegalCommand (cmd : U64)
  /-- A legal command word with a payload of another length than its opcode fixes: no command (R65). -/
  | wrongPayloadLength
  deriving DecidableEq, Repr

/-- Decode a raw transaction on a block with `W` lanes. The word is judged first (DEDUCED, log 9), then the payload's
length (R65). -/
def decode (W : Nat) (t : Transaction) : Decoded :=
  match decodeWord t.cmd t.payload with
  | none => .illegalCommand t.cmd
  | some i => if t.payload.length = i.payloadSize W then .command i else .wrongPayloadLength

/-- The transaction a byte-serial transport delivers. The command word comes least significant byte first (R62). The spec
gives no framing: that one list of bytes is one transaction, that the payload follows the word directly and is all the rest
of the list, and that fewer than eight bytes are no transaction (`none`) is the model's choice (DESIGN CHOICE, log 17). -/
def transactionOfBytes : List Byte → Option Transaction
  | b0 :: b1 :: b2 :: b3 :: b4 :: b5 :: b6 :: b7 :: payload =>
    some { cmd := u64OfBytes b0 b1 b2 b3 b4 b5 b6 b7, payload := payload }
  | _ => none

/-- What the decoder says of the bytes of a byte-serial transport. -/
inductive BytesDecoded where
  /-- The bytes are a transaction, and this is what it decodes to. -/
  | transaction (d : Decoded)
  /-- Fewer than the eight bytes of a command word: no transaction (DESIGN CHOICE, log 17). -/
  | truncatedWord
  deriving DecidableEq, Repr

/-- Decode the bytes of a byte-serial transport, total on any bytes. The framing is the model's choice (log 17). -/
def decodeBytes (W : Nat) (bytes : List Byte) : BytesDecoded :=
  match transactionOfBytes bytes with
  | none => .truncatedWord
  | some t => .transaction (decode W t)

/-! ### Encoding (R61, R63) -/

/-- The opcode of a command (R63). -/
def Instr.opcode : Instr → BitVec 8
  | .seed => 0x01
  | .sample _ => 0x02
  | .step => 0x03
  | .loadState _ => 0x04
  | .readState => 0x05

/-- The immediate of a command: `max` for SAMPLE, 0 for every other (R61). -/
def Instr.immediate : Instr → U32
  | .seed => 0
  | .sample max => max
  | .step => 0
  | .loadState _ => 0
  | .readState => 0

/-- The raw transaction of a command (R61, R65). -/
def encode (i : Instr) : Transaction :=
  { cmd := commandWord i.opcode i.immediate, payload := i.payload }

/-- The bytes of a transaction on a byte-serial transport: the word, least significant byte first (R62), then the payload
(DESIGN CHOICE, log 17). -/
def bytesOfTransaction (t : Transaction) : List Byte :=
  leBytes 8 t.cmd ++ t.payload

/-- The bytes of a command on a byte-serial transport. -/
def encodeBytes (i : Instr) : List Byte :=
  bytesOfTransaction (encode i)

/-! ### Match and mask (R64) -/

/-- A row of R64's table: a word `w` selects the row when `w &&& mask = pattern`. -/
structure OpcodeRow where
  mnemonic : String
  pattern : U64
  mask : U64
  deriving DecidableEq, Repr

/-- The table of R64. The decoder is `decodeWord`; this is the second reading of the encoding. -/
def opcodeRows : List OpcodeRow :=
  [ { mnemonic := "SEED",       pattern := 0x0000000000000001, mask := 0xFFFFFFFFFFFFFFFF },
    { mnemonic := "SAMPLE",     pattern := 0x0000000000000002, mask := 0x00000000FFFFFFFF },
    { mnemonic := "STEP",       pattern := 0x0000000000000003, mask := 0xFFFFFFFFFFFFFFFF },
    { mnemonic := "LOAD_STATE", pattern := 0x0000000000000004, mask := 0xFFFFFFFFFFFFFFFF },
    { mnemonic := "READ_STATE", pattern := 0x0000000000000005, mask := 0xFFFFFFFFFFFFFFFF } ]

/-- Does the word select the row? (R64) -/
def rowMatches (cmd : U64) (r : OpcodeRow) : Bool :=
  (cmd &&& r.mask) == r.pattern

/-- The row's mnemonic of a command (R63). -/
def Instr.mnemonic : Instr → String
  | .seed => "SEED"
  | .sample _ => "SAMPLE"
  | .step => "STEP"
  | .loadState _ => "LOAD_STATE"
  | .readState => "READ_STATE"

/-! ### Words numbered as the opcode table numbers them -/

/-- The transaction whose bits are the low `nbits` of `w`, bit 0 being the least significant bit of the command word
and the payload's bits counting on from bit 64; every bit above `nbits` is 0. The payload has the length the opcode
fixes (R60), so the table's 64 bits of LOAD_STATE stand for a payload of zeros. -/
def tableTransaction (W nbits w : Nat) : Transaction :=
  let v := w % 2 ^ nbits
  let cmd : U64 := BitVec.ofNat 64 v
  let size :=
    match decodeWord cmd [] with
    | none => 0
    | some i => i.payloadSize W
  { cmd := cmd, payload := (List.range size).map fun b => BitVec.ofNat 8 (v >>> (64 + 8 * b)) }

/-- The command the decoder reads from the transaction's bytes, laid out as the transport sends them (R62, log 17). -/
def decodeTableWord (nbits w : Nat) : Option Instr :=
  match decodeBytes Config.lanes (bytesOfTransaction (tableTransaction Config.lanes nbits w)) with
  | .transaction (.command i) => some i
  | .transaction (.illegalCommand _) => none
  | .transaction .wrongPayloadLength => none
  | .truncatedWord => none

end Sys2Proof
end

