-- ==== Sys2Proof/Machine/State.lean ====
section
/-! DEFINITION. The state of the block (R35) and of its surroundings, as plain data; the reasons a step can stop; the
state after reset (R140). -/

namespace Sys2Proof.Machine

/-- The name of a state vector register: v = 0..3 (R20). -/
inductive VecId where
  | s0 | s1 | s2 | s3
  deriving DecidableEq, Repr

/-- A lane-column: lane k of S0, S1, S2 and S3 together, one complete 256-bit xoshiro256+ state (R7, R17). -/
structure Column where
  s0 : U64
  s1 : U64
  s2 : U64
  s3 : U64
  deriving DecidableEq, Repr

/-- `some (v, partial)` of R35: the vector whose entropy request SEED waits for, and S as it is then. -/
structure SeedProgress where
  /-- The vector whose request is open. -/
  vec : VecId
  /-- `partial`: the state vectors, those before `vec` loaded. -/
  loaded : List Column
  deriving DecidableEq, Repr

/-- The block's state, exactly the tuple of R35. W is the number of lane-columns. -/
structure Block where
  /-- S0..S3, stored by lane: lane k of S_v is component v of column k (log 2). -/
  cols : List Column
  /-- BUF, FW = 2W words (R26). -/
  buf : List U32
  /-- CUR, in 0..FW-1 (R31). -/
  cur : Nat
  /-- Hidden; `none` but while SEED holds on the entropy port (R35, R102). -/
  seedProgress : Option SeedProgress
  deriving DecidableEq, Repr

/-- The response statuses the block produces (R66); 0b10 and 0b11 are reserved and never produced. -/
inductive Status where
  | ok
  | illegal
  deriving DecidableEq, Repr

/-- A response: `(status : u2, result : u32, vec : bytes)` (R66). -/
structure Response where
  status : Status
  result : U32
  vec : List Byte
  deriving DecidableEq, Repr

/-- An answer of the entropy port: the bytes delivered, their number being the count c (R100). -/
abbrev EntropyAnswer := List Byte

/-- The block and what stands around it. `block` is the block's state (R35). The other fields are the model's own: the
inputs the surroundings have ready, and the responses the host has received. -/
structure State where
  /-- The block (R35). -/
  block : Block
  /-- The transactions the host has still to issue, the next one first (R136; DESIGN CHOICE, log 3). -/
  host : List Transaction
  /-- What the entropy port shows, oldest first: `some B` is an answer, `none` a step in which the request stays
  unanswered; when the list is empty it stays unanswered for good (R100, R133; DESIGN CHOICE, log 4). -/
  entropy : List (Option EntropyAnswer)
  /-- Samples of the reset input, one a step; when the list is empty the input is not asserted (R141; DESIGN CHOICE,
  log 7). -/
  resetIn : List Bool
  /-- The responses delivered, oldest first (R136; DESIGN CHOICE, log 6). -/
  responses : List Response
  deriving DecidableEq, Repr

/-- The reasons a step ends in a fault. No command of the spec faults. -/
inductive Fault where
  /-- Raised by SampleCore (SAMPLE, SEED's warm-up) when the buffer has no word at the index to be read. BUF[j] exists
  for 0 <= j < FW only (R14, R31), and no run from reset gets there. Safe (log 12). -/
  | noBufferWord
  deriving DecidableEq, Repr

/-- The reasons a step ends in a refusal. -/
inductive Refusal where
  /-- Raised by an arm of `exec` that has no meaning yet. Safe. -/
  | notModelled (mnemonic : String)
  /-- Raised where a legal command word comes with a payload of another length than its opcode fixes: refused at the
  interface (R65, U14). Safe (log 10). -/
  | wrongPayloadLength
  /-- Raised by SEED where the entropy port shows more bytes than were asked for: no answer of R100. Safe (log 11). -/
  | entropyAnswerTooLong
  deriving DecidableEq, Repr

/-- W, the number of lanes of a block (R8). -/
def Block.lanes (b : Block) : Nat := b.cols.length

/-- FW = 2W, the number of buffer words (R9). -/
def Block.fw (b : Block) : Nat := 2 * b.lanes

/-- A lane-column that is all zero (R25). -/
def Column.zero : Column := { s0 := 0, s1 := 0, s2 := 0, s3 := 0 }

/-- The reset table of R140 for a block with `W` lanes. -/
def Block.resetOf (W : Nat) : Block :=
  { cols := List.replicate W Column.zero
    buf := List.replicate (2 * W) 0
    cur := 2 * W - 1
    seedProgress := none }

/-- The machine right after reset, for any W: the block as R140 says, nothing issued, nothing waiting. -/
def State.resetOf (W : Nat) : State :=
  { block := Block.resetOf W, host := [], entropy := [], resetIn := [], responses := [] }

/-- The machine right after reset, with the lane count of Config (DESIGN CHOICE, log 1). -/
def State.reset : State := State.resetOf Config.lanes

end Sys2Proof.Machine
end

