-- ==== Sys2Proof/Machine/Flags.lean ====
section
/-! DEFINITION. The block has no condition codes or flags (R34), so there is no flag computation. What a command reports
beside its result is the 2-bit response status (R66). -/

namespace Sys2Proof.Machine

/-- The 2-bit code of a status (R66). -/
def Status.code : Status → BitVec 2
  | .ok => 0b00
  | .illegal => 0b01

end Sys2Proof.Machine
end

