-- ==== Sys2Proof/Machine/Operands.lean ====
section
/-! DEFINITION. The views of the state that cross the block's interface: the vectors S0..S3 as lanes and as bytes (R44),
the four-vector payload (R45), and 32-bit words as bytes (R46). -/

namespace Sys2Proof.Machine

/-- Lane k of S_v is component v of column k (R7, R14). -/
def Column.get (v : VecId) (c : Column) : U64 :=
  match v with
  | .s0 => c.s0
  | .s1 => c.s1
  | .s2 => c.s2
  | .s3 => c.s3

/-- Write one component of a column. -/
def Column.set (v : VecId) (x : U64) (c : Column) : Column :=
  match v with
  | .s0 => { c with s0 := x }
  | .s1 => { c with s1 := x }
  | .s2 => { c with s2 := x }
  | .s3 => { c with s3 := x }

/-- S_v as its lanes, lane 0 first (R20). -/
def vecOf (v : VecId) (cols : List Column) : List U64 :=
  cols.map (Column.get v)

/-- `S[v] <- V`: write every lane of one vector. -/
def setVec (v : VecId) (V : List U64) (cols : List Column) : List Column :=
  List.zipWith (fun c x => c.set v x) cols V

/-- BytesFromVec (R44): lane k at bytes 8k..8k+7, least significant byte first. -/
def bytesFromVec (V : List U64) : List Byte :=
  V.flatMap (leBytes 8)

/-- VecFromBytes (R44): each eight bytes are one lane, least significant byte first. -/
def vecFromBytes : List Byte → List U64
  | b0 :: b1 :: b2 :: b3 :: b4 :: b5 :: b6 :: b7 :: rest =>
    u64OfBytes b0 b1 b2 b3 b4 b5 b6 b7 :: vecFromBytes rest
  | _ => []

/-- The order in which vectors are transferred: S0, S1, S2, S3 (R45, R57). -/
def vecOrder : List VecId := [.s0, .s1, .s2, .s3]

/-- The 32W-byte payload of the four vectors: S0's byte image, then S1's, S2's, S3's (R45). -/
def bytesFromState (cols : List Column) : List Byte :=
  vecOrder.flatMap fun v => bytesFromVec (vecOf v cols)

/-- The position of a vector in the transfer order: v of R45. -/
def VecId.index : VecId → Nat
  | .s0 => 0
  | .s1 => 1
  | .s2 => 2
  | .s3 => 3

/-- The part of a payload that is the image of S_v: bytes 8Wv..8Wv+8W-1 (R105). -/
def payloadPart (W : Nat) (v : VecId) (p : List Byte) : List Byte :=
  (p.drop (8 * W * v.index)).take (8 * W)

/-- LOAD_STATE's loop: `S[v] <- VecFromBytes(p[8Wv..8Wv+8W-1])` for v = 0..3 (R105). -/
def loadVectors (p : List Byte) (cols : List Column) : List Column :=
  vecOrder.foldl (fun cs v => setVec v (vecFromBytes (payloadPart cols.length v p)) cs) cols

/-- The bytes of a vector of 32-bit words: word j at bytes 4j..4j+3, least significant byte first (R46). -/
def bytesFromWords (ws : List U32) : List Byte :=
  ws.flatMap (leBytes 4)

end Sys2Proof.Machine
end

