-- ==== Sys2Proof/Machine/StepFunction.lean ====
section
/-! DEFINITION. The step primitive `Step()` (R80, R81), its closed form (R82) and its inverse (R24). -/

namespace Sys2Proof.Machine

/-- Rotate left: `(a << n) | (a >> (64 - n))`, for 0 < n < 64 (R13). -/
def rotl64 (a : U64) (n : Nat) : U64 :=
  (a <<< n) ||| (a >>> (64 - n))

/-- Rotate right: `rotr64(x, n) = rotl64(x, 64 - n)` (R24). -/
def rotr64 (a : U64) (n : Nat) : U64 :=
  rotl64 a (64 - n)

/-- One lane's round, the lines in the order of R80, each reading what the lines before it wrote. Answers the lane's
`result` and its new column. -/
def stepColumn (c : Column) : U64 × Column :=
  let result := c.s0 + c.s3
  let t := c.s1 <<< Config.shiftAmount
  let c := { c with s2 := c.s2 ^^^ c.s0 }
  let c := { c with s3 := c.s3 ^^^ c.s1 }
  let c := { c with s1 := c.s1 ^^^ c.s2 }
  let c := { c with s0 := c.s0 ^^^ c.s3 }
  let c := { c with s2 := c.s2 ^^^ t }
  let c := { c with s3 := rotl64 c.s3 Config.rotateAmount }
  (result, c)

/-- The closed form of one lane's round, from the old values only (R82). -/
def stepColumnClosed (c : Column) : U64 × Column :=
  (c.s0 + c.s3,
   { s0 := c.s0 ^^^ c.s3 ^^^ c.s1
     s1 := c.s1 ^^^ c.s2 ^^^ c.s0
     s2 := c.s2 ^^^ c.s0 ^^^ (c.s1 <<< 17)
     s3 := rotl64 (c.s3 ^^^ c.s1) 45 })

/-- The inverse of R24. `x = s1 ^ (s1 << 17)` determines s1 from bit 0 upward; written out, the bits of x shifted by
17, 34 and 51 are folded in. -/
def unstepColumn (c : Column) : Column :=
  let x := c.s1 ^^^ c.s2
  let s1 := x ^^^ (x <<< 17) ^^^ (x <<< 34) ^^^ (x <<< 51)
  let r := rotr64 c.s3 45
  let s0 := c.s0 ^^^ r
  { s0 := s0, s1 := s1, s2 := c.s1 ^^^ s1 ^^^ s0, s3 := r ^^^ s1 }

/-- The two 32-bit words of a 64-bit lane, low half first (R43, R81). -/
def halves (r : U64) : List U32 :=
  [r.extractLsb' 0 32, r.extractLsb' 32 32]

/-- `Split`: W 64-bit values as 2W 32-bit words (R81). -/
def split (rs : List U64) : List U32 :=
  rs.flatMap halves

/-- The columns after `Step()`. -/
def stepCols (cols : List Column) : List Column :=
  cols.map fun c => (stepColumn c).2

/-- The FW words `Step()` returns (R80 line 6). -/
def stepWords (cols : List Column) : List U32 :=
  split (cols.map fun c => (stepColumn c).1)

end Sys2Proof.Machine
end

