-- ==== Sys2Proof/Machine/Ops.lean ====
section
/-! DEFINITION. The operations the commands share: RangeMap (R90), SampleCore (R91), EntropyLoad (R101), the SEED
sequence with its hold (R102, R133), Respond (R66), the IllegalCommand exception (R121) and reset (R141). -/

namespace Sys2Proof.Machine

/-- `Respond(status, result, vec)`: end the command and give the host its response (R15, R66). -/
def State.respond (status : Status) (result : U32) (vec : List Byte) (s : State) : State :=
  { s with responses := s.responses ++ [{ status := status, result := result, vec := vec }] }

/-- Replace the block's state. -/
def State.withBlock (b : Block) (s : State) : State :=
  { s with block := b }

/-- `raise IllegalCommand(cmd)`: no state changes, the response is (ILLEGAL, 0, empty), nothing is recorded (R121).
There is no trap context, so there is no return from it (R124, R125). -/
def State.raiseIllegal (s : State) : State :=
  s.respond .illegal 0 []

/-- Reset asserted: the block takes the reset table, from any state, and an outstanding SEED is abandoned without a
response (R123, R141). W is a property of the block and stays. -/
def State.takeReset (s : State) : State :=
  s.withBlock (Block.resetOf s.block.lanes)

/-- RangeMap (R90): the high word of the exact 64-bit product, plus 1. -/
def rangeMap (value max : U32) : U32 :=
  let p : U64 := value.setWidth 64 * max.setWidth 64
  p.extractLsb' 32 32 + 1

/-- `Step()` (R80) on the block: the state vectors advance, the FW output words are returned, nothing else changes. -/
def Block.stepOnce (b : Block) : Block × List U32 :=
  ({ b with cols := stepCols b.cols }, stepWords b.cols)

/-- SampleCore (R91): at the refill boundary read the stale last word, reset the cursor, then step and refill;
otherwise read the word under the cursor and advance it. `none` where the buffer has no such word (log 12). -/
def Block.sampleCore (max : U32) (b : Block) : Option (U32 × Block) :=
  if b.cur = b.fw - 1 then
    match b.buf[b.fw - 1]? with
    | none => none
    | some value =>
      let b := { b with cur := 0 }
      let (b, v) := b.stepOnce
      let b := { b with buf := v }
      some (rangeMap value max, b)
  else
    match b.buf[b.cur]? with
    | none => none
    | some value => some (rangeMap value max, { b with cur := b.cur + 1 })

/-- `img[b] <- B[b]` for b < c: the delivered bytes land in order from byte 0, the rest of the image stays (R101). -/
def overlay (B img : List Byte) : List Byte :=
  B ++ img.drop B.length

/-- EntropyLoad(v) (R101), once the port has answered `B`: undelivered bytes keep their old value. -/
def entropyLoad (v : VecId) (B : EntropyAnswer) (cols : List Column) : List Column :=
  setVec v (vecFromBytes (overlay B (bytesFromVec (vecOf v cols)))) cols

/-- `seedProgress <- some (v, S)` (R102). -/
def Block.holdAt (v : VecId) (b : Block) : Block :=
  { b with seedProgress := some { vec := v, loaded := b.cols } }

/-- The end of SEED: `seedProgress <- none`, the warm-up draw with its result discarded, the response (R102). -/
def finishSeed (s : State) : Host.Outcome State Fault Refusal :=
  match Block.sampleCore Config.warmUpMax { s.block with seedProgress := none } with
  | none => .fault .noBufferWord
  | some (_, b) => .next ((s.withBlock b).respond .ok 0 [])

/-- SEED's loop over the vectors still to load (R102). Each request takes the next answer the port shows; where the port
shows none, the step ends and SEED holds with `seedProgress` at that vector (R133; DEDUCED, log 5). -/
def seedRun : List VecId → State → Host.Outcome State Fault Refusal
  | [], s => finishSeed s
  | v :: vs, s =>
    let s := s.withBlock (s.block.holdAt v)
    match s.entropy with
    | [] => .next s
    | none :: rest => .next { s with entropy := rest }
    | some B :: rest =>
      if B.length ≤ 8 * s.block.lanes then
        seedRun vs ({ s with entropy := rest }.withBlock { s.block with cols := entropyLoad v B s.block.cols })
      else .refused .entropyAnswerTooLong

/-- The vectors a SEED that waits for `v` has still to load (R57, R102). -/
def VecId.remaining : VecId → List VecId
  | .s0 => [.s0, .s1, .s2, .s3]
  | .s1 => [.s1, .s2, .s3]
  | .s2 => [.s2, .s3]
  | .s3 => [.s3]

end Sys2Proof.Machine
end

