-- ==== Sys2Proof/Machine/Sampler.lean ====
section
/-! DEFINITION. The meaning of SAMPLE (R95). -/

namespace Sys2Proof.Machine

/-- SAMPLE (R95): one SampleCore call, its value in the response. Every `max` is legal (R68). -/
def execSample (max : U32) (s : State) : Host.Outcome State Fault Refusal :=
  match s.block.sampleCore max with
  | none => .fault .noBufferWord
  | some (r, b) => .next ((s.withBlock b).respond .ok r [])

end Sys2Proof.Machine
end

