-- ==== Sys2Proof/Machine/SeedState.lean ====
section
/-! DEFINITION. The meanings of SEED (R102), LOAD_STATE (R105) and READ_STATE (R107). -/

namespace Sys2Proof.Machine

/-- SEED (R102): the four entropy loads in the order S0, S1, S2, S3, then the warm-up draw. Where the entropy port shows
no answer the command holds, and later steps go on with it (R133). -/
def execSeed (s : State) : Host.Outcome State Fault Refusal :=
  seedRun vecOrder s

/-- LOAD_STATE (R105): S0..S3 from the payload, no warm-up. A payload of another length than 32W is no command (R65). -/
def execLoadState (p : List Byte) (s : State) : Host.Outcome State Fault Refusal :=
  if p.length = 32 * s.block.lanes then
    .next ((s.withBlock { s.block with cols := loadVectors p s.block.cols }).respond .ok 0 [])
  else .refused .wrongPayloadLength

/-- READ_STATE (R107): the byte images of S0..S3 in the response; nothing changes. -/
def execReadState (s : State) : Host.Outcome State Fault Refusal :=
  .next (s.respond .ok 0 (bytesFromState s.block.cols))

end Sys2Proof.Machine
end

