-- ==== Sys2Proof/Machine/StepCommand.lean ====
section
/-! DEFINITION. The meaning of STEP (R85). -/

namespace Sys2Proof.Machine

/-- STEP (R85): one `Step()`, its FW words in the response; BUF and CUR are not touched. -/
def execStep (s : State) : Host.Outcome State Fault Refusal :=
  let (b, v) := s.block.stepOnce
  .next ((s.withBlock b).respond .ok 0 (bytesFromWords v))

end Sys2Proof.Machine
end

