-- ==== Sys2Proof/Machine/Dispatch.lean ====
section
/-! DEFINITION. One arm per command. -/

namespace Sys2Proof.Machine

def exec (i : Instr) (s : State) : Host.Outcome State Fault Refusal :=
  match i with
  | .seed => Sys2Proof.Machine.execSeed s
  | .sample max => Sys2Proof.Machine.execSample max s
  | .step => Sys2Proof.Machine.execStep s
  | .loadState p => Sys2Proof.Machine.execLoadState p s
  | .readState => Sys2Proof.Machine.execReadState s

end Sys2Proof.Machine
end

