-- ==== Sys2Proof/Machine/Fetch.lean ====
section
/-! DEFINITION. What happens in one step: the reset input, a SEED that holds, the command port (R123, R130, R133). -/

namespace Sys2Proof.Machine

/-- Is the reset input asserted in this step? (R141, log 7) -/
def State.resetAsserted (s : State) : Bool :=
  s.resetIn.headD false

/-- This step's sample of the reset input is used up. -/
def State.popReset (s : State) : State :=
  { s with resetIn := s.resetIn.tail }

/-- A raw transaction at the command port: a command runs, an illegal word gets the ILLEGAL response (R121), a payload
of the wrong length is refused at the interface (R65). -/
def issue (t : Transaction) (s : State) : Host.Outcome State Fault Refusal :=
  match decode s.block.lanes t with
  | .command i => exec i s
  | .illegalCommand _ => .next s.raiseIllegal
  | .wrongPayloadLength => .refused .wrongPayloadLength

/-- A step in which reset is not asserted. While SEED is outstanding it goes on and no command is taken (R130, R133).
Otherwise the host's next transaction is taken; where the host has none, nothing changes (R52). -/
def cycle (s : State) : Host.Outcome State Fault Refusal :=
  match s.block.seedProgress with
  | some p => seedRun p.vec.remaining s
  | none =>
    match s.host with
    | [] => .next s
    | t :: rest => issue t { s with host := rest }

/-- Put a transaction where the next step takes its command: first in the host's list, no SEED outstanding, the reset
input not asserted in that step (log 13). -/
def placeNext (t : Transaction) (s : State) : State :=
  { s with
    host := t :: s.host
    resetIn := false :: s.resetIn
    block := { s.block with seedProgress := none } }

end Sys2Proof.Machine
end

