-- ==== Sys2Proof/Machine/Step.lean ====
section
/-! DEFINITION. One step of the machine, and the host's way to place a command. -/

namespace Sys2Proof.Machine

/-- One step. Reset takes priority over everything (R123): no command is taken and an outstanding SEED is abandoned. -/
def step (s : State) : Host.Outcome State Fault Refusal :=
  if s.resetAsserted then .next s.popReset.takeReset else cycle s.popReset

/-- `s` with the command whose bits are `w` placed so that the very next step runs it. -/
def State.withFetchWord (s : State) (nbits w : Nat) : State :=
  placeNext (tableTransaction s.block.lanes nbits w) s

end Sys2Proof.Machine
end

