-- ==== Sys2Proof/Machine/Assembler.lean ====
section
/-! DEFINITION. The assembly syntax of R69: one line to one raw transaction. There are no pseudo-instructions (R70).
Where the grammar does not say whether blanks may stand around punctuation and between payload bytes, they may
(DESIGN CHOICE, log 16). Text is a list of characters. -/

namespace Sys2Proof.Machine

/-- A blank: `ws` of R69. -/
def isBlank (c : Char) : Bool := c == ' ' || c == '\t'

def skipBlanks (cs : List Char) : List Char := cs.dropWhile isBlank

/-- A decimal digit's value. -/
def decDigit (c : Char) : Option Nat :=
  if 48 ≤ c.toNat ∧ c.toNat ≤ 57 then some (c.toNat - 48) else none

/-- A hex digit's value, either case. -/
def hexDigit (c : Char) : Option Nat :=
  if 48 ≤ c.toNat ∧ c.toNat ≤ 57 then some (c.toNat - 48)
  else if 65 ≤ c.toNat ∧ c.toNat ≤ 70 then some (c.toNat - 55)
  else if 97 ≤ c.toNat ∧ c.toNat ≤ 102 then some (c.toNat - 87)
  else none

/-- The longest run of digits, and what follows it. -/
def takeDigits (digit : Char → Option Nat) : List Char → List Nat × List Char
  | [] => ([], [])
  | c :: cs =>
    match digit c with
    | none => ([], c :: cs)
    | some d => (d :: (takeDigits digit cs).1, (takeDigits digit cs).2)

def digitsValue (base : Nat) (ds : List Nat) : Nat :=
  ds.foldl (fun a d => base * a + d) 0

/-- A number of at most `bits` bits: `0x` and 1 to bits/4 hex digits, or decimal. -/
def parseNumber (bits : Nat) : List Char → Option (Nat × List Char)
  | '0' :: 'x' :: rest =>
    let (ds, rest) := takeDigits hexDigit rest
    if ds ≠ [] ∧ ds.length ≤ bits / 4 then some (digitsValue 16 ds, rest) else none
  | cs =>
    let (ds, rest) := takeDigits decDigit cs
    if ds ≠ [] ∧ digitsValue 10 ds < 2 ^ bits then some (digitsValue 10 ds, rest) else none

/-- One punctuation character, blanks allowed on both sides. -/
def parsePunct (c : Char) (cs : List Char) : Option (List Char) :=
  match skipBlanks cs with
  | [] => none
  | d :: rest => if d = c then some (skipBlanks rest) else none

/-- `n` further lanes, each after a comma. -/
def parseLanes : Nat → List Char → Option (List U64 × List Char)
  | 0, cs => some ([], cs)
  | n + 1, cs => do
    let cs ← parsePunct ',' cs
    let (x, cs) ← parseNumber 64 cs
    let (xs, cs) ← parseLanes n cs
    pure (BitVec.ofNat 64 x :: xs, cs)

/-- `vec`: exactly W lanes in braces, lane 0 first. (The braces are characters 123 and 125.) -/
def parseVec (W : Nat) (cs : List Char) : Option (List U64 × List Char) := do
  let cs ← parsePunct (Char.ofNat 123) cs
  let (x, cs) ← parseNumber 64 cs
  let (xs, cs) ← parseLanes (W - 1) cs
  let cs ← parsePunct (Char.ofNat 125) cs
  pure (BitVec.ofNat 64 x :: xs, cs)

/-- The bytes of a raw payload, two hex digits each, up to the closing `>`. -/
def parsePayload : List Char → Option (List Byte × List Char)
  | [] => none
  | [c] => if c = '>' then some ([], []) else none
  | c :: d :: rest =>
    if c = '>' then some ([], d :: rest)
    else if isBlank c then parsePayload (d :: rest)
    else do
      let hi ← hexDigit c
      let lo ← hexDigit d
      let (bs, cs) ← parsePayload rest
      pure (BitVec.ofNat 8 (16 * hi + lo) :: bs, cs)

/-- A character of a mnemonic. -/
def isWordChar (c : Char) : Bool := c.isAlphanum || c == '_' || c == '.'

/-- An operand stands after at least one blank. -/
def afterBlank (cs : List Char) : Option (List Char) :=
  match cs with
  | [] => none
  | c :: rest => if isBlank c then some (skipBlanks rest) else none

/-- Only blanks are left of the line. -/
def lineEnd (cs : List Char) (t : Transaction) : Option (Option Transaction) :=
  if skipBlanks cs = [] then some (some t) else none

/-- Assemble one line for a block with `W` lanes (R69). `none`: a syntax error; `some none`: a line without a command.
Mnemonics are case-insensitive; a comment runs from `;` to the end. -/
def assembleLine (W : Nat) (line : List Char) : Option (Option Transaction) :=
  let cs := skipBlanks (line.takeWhile (· != ';'))
  let word := (cs.takeWhile isWordChar).map Char.toUpper
  let rest := cs.dropWhile isWordChar
  if cs = [] then some none
  else if word = ['S', 'E', 'E', 'D'] then lineEnd rest (encode .seed)
  else if word = ['S', 'T', 'E', 'P'] then lineEnd rest (encode .step)
  else if word = ['R', 'E', 'A', 'D', '_', 'S', 'T', 'A', 'T', 'E'] then lineEnd rest (encode .readState)
  else if word = ['S', 'A', 'M', 'P', 'L', 'E'] then do
    let rest ← afterBlank rest
    let (max, rest) ← parseNumber 32 rest
    lineEnd rest (encode (.sample (BitVec.ofNat 32 max)))
  else if word = ['L', 'O', 'A', 'D', '_', 'S', 'T', 'A', 'T', 'E'] then do
    let rest ← afterBlank rest
    let (v0, rest) ← parseVec W rest
    let rest ← parsePunct ',' rest
    let (v1, rest) ← parseVec W rest
    let rest ← parsePunct ',' rest
    let (v2, rest) ← parseVec W rest
    let rest ← parsePunct ',' rest
    let (v3, rest) ← parseVec W rest
    lineEnd rest (encode (.loadState (bytesFromVec v0 ++ bytesFromVec v1 ++ bytesFromVec v2 ++ bytesFromVec v3)))
  else if word = ['.', 'W', 'O', 'R', 'D', '6', '4'] then do
    let rest ← afterBlank rest
    let (cmd, rest) ← parseNumber 64 rest
    if skipBlanks rest = [] then some (some { cmd := BitVec.ofNat 64 cmd, payload := [] })
    else
      let rest ← afterBlank rest
      let rest ← parsePunct '<' rest
      let (payload, rest) ← parsePayload rest
      lineEnd rest { cmd := BitVec.ofNat 64 cmd, payload := payload }
  else none

end Sys2Proof.Machine
end

