-- ==== Sys2Proof/Safety.lean ====
section
/-! DEFINITION. The terms claims use: the well-formed states (the ranges R8, R26, R31 and R35 give the state), and
sequences of SampleCore calls (R92). -/

namespace Sys2Proof.Machine

/-- The block's state is one of `BlockState(W)` of R35 for some W >= 1. -/
structure Block.Wf (b : Block) : Prop where
  /-- W >= 1 (R8). -/
  lanes_pos : 1 ≤ b.lanes
  /-- BUF has FW words (R26). -/
  buf_length : b.buf.length = b.fw
  /-- CUR is in [0, FW-1] (R31). -/
  cur_lt : b.cur < b.fw
  /-- `seedProgress` holds S as it is (R102). -/
  progress : ∀ p, b.seedProgress = some p → p.loaded = b.cols

/-- The invariant every step keeps. -/
def State.Inv (s : State) : Prop := s.block.Wf

/-- Consecutive SampleCore calls with no other command between them: the values returned, and the block after (R92).
`none` if a call finds no buffer word. -/
def sampleCalls : List U32 → Block → Option (List U32 × Block)
  | [], b => some ([], b)
  | max :: rest, b =>
    match b.sampleCore max with
    | none => none
    | some (r, b) =>
      match sampleCalls rest b with
      | none => none
      | some (rs, b) => some (r :: rs, b)

end Sys2Proof.Machine
end

