-- ==== Sys2Proof/Certificates/Slice0/Obligations.lean ====
section
/-! DEFINITION. The statements for the provers. Each docstring names the rules of spec/ it rests on. -/

open Sys2Proof Sys2Proof.Machine

/-! ### Reset and the invariant -/

/-- R25, R33, R140: for any W, the reset block has every lane of S0..S3 at 0, FW words of BUF at 0 (the spec's decision
D9), CUR = FW-1, and no SEED in progress. -/
def Obligations.ResetBlockValues : Prop :=
  ∀ W : Nat,
    (∀ v, vecOf v (State.resetOf W).block.cols = List.replicate W 0) ∧
    (State.resetOf W).block.buf = List.replicate (2 * W) 0 ∧
    (State.resetOf W).block.cur = 2 * W - 1 ∧
    (State.resetOf W).block.seedProgress = none

/-- The reset state meets the invariant, for any W >= 1 (R8, R140), and so does `State.reset`. -/
def Obligations.ResetMeetsInvariant : Prop :=
  (∀ W : Nat, 1 ≤ W → (State.resetOf W).Inv) ∧ State.reset.Inv

/-- R26, R31, R32, R35: from every state of `BlockState(W)`, a step leads to one: FW buffer words, CUR in 0..FW-1,
`seedProgress` holding S as it is. -/
def Obligations.EveryStepKeepsBlockWellFormed : Prop :=
  ∀ s t : State, s.Inv → step s = .next t → t.Inv

/-- No state of `BlockState(W)` faults (R120: the only exception is a response), and a step is refused only at the
interface: a transaction whose payload has the wrong length (R65; that the model stops there is log 10), or an entropy
answer longer than was asked for (log 11). Both stops are the model's. -/
def Obligations.StopsOnlyAtTheInterface : Prop :=
  ∀ s : State, s.Inv →
    (∀ f, step s ≠ .fault f) ∧
    (∀ r, step s = .refused r →
      (r = .wrongPayloadLength ∧ s.block.seedProgress = none ∧
        ∃ t rest, s.host = t :: rest ∧ decode s.block.lanes t = .wrongPayloadLength) ∨
      (r = .entropyAnswerTooLong ∧ ∃ B, some B ∈ s.entropy ∧ 8 * s.block.lanes < B.length))

/-- R8, R36: no step, reset included, changes the number of lanes. -/
def Obligations.LaneCountNeverChanges : Prop :=
  ∀ s t : State, step s = .next t → t.block.lanes = s.block.lanes

/-! ### Encoding -/

/-- R61, R62, R65: for any W, the bytes of any well-formed command, on a byte-serial transport, decode to it. The word's
byte order is R62's; that the payload follows the word and ends with the bytes is the model's choice (log 17). -/
def Obligations.BytesOfCommandDecodeToIt : Prop :=
  ∀ (W : Nat) (i : Instr), i.wf W = true → decodeBytes W (encodeBytes i) = .transaction (.command i)

/-- R65, R67: what decodes to a command is that command's encoding and nothing else, and the command is well-formed. -/
def Obligations.DecodedTransactionIsItsEncoding : Prop :=
  ∀ (W : Nat) (t : Transaction) (i : Instr), decode W t = .command i → i.wf W = true ∧ encode i = t

/-- R64: the decoder agrees with the table of match and mask: a command's word matches its own row and no other; a word is
illegal exactly when no row matches it; no word matches two. -/
def Obligations.DecoderAgreesWithMatchAndMask : Prop :=
  (∀ (cmd : U64) (p : List Byte) (i : Instr), decodeWord cmd p = some i →
    ∀ r ∈ opcodeRows, rowMatches cmd r = (r.mnemonic == i.mnemonic)) ∧
  (∀ (cmd : U64) (p : List Byte), decodeWord cmd p = none ↔ ∀ r ∈ opcodeRows, rowMatches cmd r = false) ∧
  (∀ cmd : U64, (opcodeRows.filter (rowMatches cmd)).length ≤ 1)

/-- R67: the decode algorithm on the fields OPC = CMD[7:0], RSV = CMD[31:8], IMM = CMD[63:32]: each legal case gives its
command, and the word is illegal exactly when OPC is 0x00 or 0x06..0xFF, or RSV is not 0, or IMM is not 0 with an OPC of
0x01, 0x03, 0x04, 0x05. -/
def Obligations.DecodeFollowsTheFields : Prop :=
  ∀ (cmd : U64) (p : List Byte),
    (decodeWord cmd p = none ↔
      (cmd.toNat % 256 = 0 ∨ 6 ≤ cmd.toNat % 256 ∨ cmd.toNat / 256 % 16777216 ≠ 0 ∨
        (cmd.toNat / 4294967296 ≠ 0 ∧ (cmd.toNat % 256 = 1 ∨ cmd.toNat % 256 = 3 ∨ cmd.toNat % 256 = 4 ∨
          cmd.toNat % 256 = 5)))) ∧
    (cmd.toNat = 1 → decodeWord cmd p = some .seed) ∧
    (∀ max : U32, cmd.toNat = max.toNat * 4294967296 + 2 → decodeWord cmd p = some (.sample max)) ∧
    (cmd.toNat = 3 → decodeWord cmd p = some .step) ∧
    (cmd.toNat = 4 → decodeWord cmd p = some (.loadState p)) ∧
    (cmd.toNat = 5 → decodeWord cmd p = some .readState)

/-- The eleven encoding examples of R71, for W = 1, and the assembly lines of two of them (R69). -/
def Obligations.SpecWordsDecode : Prop :=
  decode 1 ⟨0x0000000000000001, []⟩ = .command .seed ∧
  decode 1 ⟨0x0000001400000002, []⟩ = .command (.sample 20) ∧
  decode 1 ⟨0x00007FFF00000002, []⟩ = .command (.sample 32767) ∧
  decode 1 ⟨0x0000000000000002, []⟩ = .command (.sample 0) ∧
  decode 1 ⟨0xFFFFFFFF00000002, []⟩ = .command (.sample 0xFFFFFFFF) ∧
  decode 1 ⟨0x0000000000000003, []⟩ = .command .step ∧
  decode 1 ⟨0x0000000000000004, List.replicate 32 0⟩ = .command (.loadState (List.replicate 32 0)) ∧
  decode 1 ⟨0x0000000000000005, []⟩ = .command .readState ∧
  decode 1 ⟨0x0000000000000000, []⟩ = .illegalCommand 0 ∧
  decode 1 ⟨0x0000000100000003, []⟩ = .illegalCommand 0x100000003 ∧
  decode 1 ⟨0x0000000000000102, []⟩ = .illegalCommand 0x102 ∧
  assembleLine 1 ['S', 'A', 'M', 'P', 'L', 'E', ' ', '2', '0'] = some (some ⟨0x0000001400000002, []⟩) ∧
  assembleLine 1 ['.', 'w', 'o', 'r', 'd', '6', '4', ' ', '0', 'x', '1', '0', '2'] = some (some ⟨0x102, []⟩)

/-! ### Byte layouts -/

/-- R44: BytesFromVec puts byte m of lane k at 8k+m, and VecFromBytes makes lane k the sum of B[8k+m] x 2^(8m). -/
def Obligations.VectorByteImage : Prop :=
  (∀ (V : List U64) (b : Nat),
    (bytesFromVec V)[b]? = V[b / 8]?.map fun lane => lane.extractLsb' (8 * (b % 8)) 8) ∧
  (∀ (W : Nat) (B : List Byte), B.length = 8 * W →
    (vecFromBytes B).length = W ∧
    ∀ (k : Nat) (hk : k < (vecFromBytes B).length) (hB : 8 * k + 7 < B.length),
      (vecFromBytes B)[k].toNat =
        B[8 * k].toNat + B[8 * k + 1].toNat * 2 ^ 8 + B[8 * k + 2].toNat * 2 ^ 16 + B[8 * k + 3].toNat * 2 ^ 24 +
        B[8 * k + 4].toNat * 2 ^ 32 + B[8 * k + 5].toNat * 2 ^ 40 + B[8 * k + 6].toNat * 2 ^ 48 +
        B[8 * k + 7].toNat * 2 ^ 56)

/-- R45: the four-vector payload has 32W bytes, and byte b of it is byte b mod 8W of the image of vector b div 8W. -/
def Obligations.PayloadLayout : Prop :=
  ∀ cols : List Column,
    (bytesFromState cols).length = 32 * cols.length ∧
    ∀ (v : VecId) (k m : Nat), k < cols.length → m < 8 →
      (bytesFromState cols)[8 * cols.length * v.index + 8 * k + m]? =
        (vecOf v cols)[k]?.map fun lane => lane.extractLsb' (8 * m) 8

/-- R81: word j of `Split` is the low half of r_(j div 2) for even j and the high half for odd j, and there are 2W. -/
def Obligations.SplitHalfOrder : Prop :=
  ∀ (rs : List U64), (split rs).length = 2 * rs.length ∧
    ∀ j : Nat, (split rs)[j]? =
      rs[j / 2]?.map fun r => if j % 2 = 0 then r.extractLsb' 0 32 else r.extractLsb' 32 32

/-- R47: the two views agree: the bytes of the 32-bit words of the lanes are the bytes of the lanes. -/
def Obligations.MixedWidthViewsAgree : Prop :=
  ∀ rs : List U64, bytesFromWords (split rs) = bytesFromVec rs

/-! ### Step -/

/-- R82: the sequential round and its closed form agree on every lane-column. -/
def Obligations.StepClosedForm : Prop :=
  ∀ c : Column, stepColumn c =
    (c.s0 + c.s3,
     { s0 := c.s0 ^^^ c.s3 ^^^ c.s1
       s1 := c.s1 ^^^ c.s2 ^^^ c.s0
       s2 := c.s2 ^^^ c.s0 ^^^ (c.s1 <<< 17)
       s3 := (c.s3 ^^^ c.s1).rotateLeft 45 })

/-- R24: a round determines the state it came from: s1 ^ (s1 << 17) is b ^ c of the new values, and the inverse gives the
old lane-column back. -/
def Obligations.StepIsInvertible : Prop :=
  ∀ c : Column,
    c.s1 ^^^ (c.s1 <<< 17) = (stepColumn c).2.s1 ^^^ (stepColumn c).2.s2 ∧
    (stepColumn c).2.s0 ^^^ rotr64 (stepColumn c).2.s3 45 = c.s0 ∧
    rotr64 (stepColumn c).2.s3 45 ^^^ c.s1 = c.s3 ∧
    unstepColumn (stepColumn c).2 = c

/-- R80, R81, R85: STEP completes from every state. Every lane runs the lines of R80 in their order; the response holds
the FW words of the sums, low half first, each as four bytes, least significant first (R46). BUF, CUR and everything
else are unchanged. -/
def Obligations.StepRunsOneRoundOnEveryLane : Prop :=
  ∀ s : State, ∃ (cols : List Column) (words : List U32),
    cols.length = s.block.lanes ∧
    words.length = 2 * s.block.lanes ∧
    (∀ (k : Nat) (c c' : Column), s.block.cols[k]? = some c → cols[k]? = some c' →
      words[2 * k]? = some ((c.s0 + c.s3).extractLsb' 0 32) ∧
      words[2 * k + 1]? = some ((c.s0 + c.s3).extractLsb' 32 32) ∧
      (let t := c.s1 <<< 17
       let s2 := c.s2 ^^^ c.s0
       let s3 := c.s3 ^^^ c.s1
       let s1 := c.s1 ^^^ s2
       let s0 := c.s0 ^^^ s3
       c'.s0 = s0 ∧ c'.s1 = s1 ∧ c'.s2 = s2 ^^^ t ∧ c'.s3 = (s3 <<< 45) ||| (s3 >>> 19))) ∧
    exec .step s = .next { s with
      block := { s.block with cols := cols }
      responses := s.responses ++ [{
        status := .ok
        result := 0
        vec := words.flatMap fun w =>
          [w.extractLsb' 0 8, w.extractLsb' 8 8, w.extractLsb' 16 8, w.extractLsb' 24 8] }] }

/-- R21, R83: lane k's new values and its two words of STEP's response depend on lane k's old values only. -/
def Obligations.StepLanesAreIndependent : Prop :=
  ∀ (s s' t t' : State) (k : Nat), s.block.cols[k]? = s'.block.cols[k]? →
    exec .step s = .next t → exec .step s' = .next t' →
    t.block.cols[k]? = t'.block.cols[k]? ∧
    ∃ r r', t.responses = s.responses ++ [r] ∧ t'.responses = s'.responses ++ [r'] ∧
      ∀ b, b < 8 → r.vec[8 * k + b]? = r'.vec[8 * k + b]?

/-- R24, R83: STEP and SAMPLE keep a zero lane-column zero and a non-zero one non-zero. Where they run a round, which is
always for STEP and at CUR = FW-1 for SAMPLE, zero is the only lane-column that the round leaves where it is (derived
from R80). -/
def Obligations.ZeroLanesAreExactlyTheStuckOnes : Prop :=
  ∀ (i : Instr) (s t : State) (k : Nat) (c c' : Column), (i = .step ∨ ∃ max, i = .sample max) →
    exec i s = .next t → s.block.cols[k]? = some c → t.block.cols[k]? = some c' →
    (c' = Column.zero ↔ c = Column.zero) ∧
    (i = .step ∨ s.block.cur = s.block.fw - 1 → (c' = c ↔ c = Column.zero))

/-! ### The sampler -/

/-- R90: RangeMap is the high word of the exact product plus 1, with no wrap; for max >= 1 it is in [1, max]; for max = 0
it is 1; it does not decrease in the value. -/
def Obligations.RangeMapProperties : Prop :=
  (∀ value max : U32, (rangeMap value max).toNat = value.toNat * max.toNat / 2 ^ 32 + 1) ∧
  (∀ value max : U32, 1 ≤ max.toNat → 1 ≤ (rangeMap value max).toNat ∧ (rangeMap value max).toNat ≤ max.toNat) ∧
  (∀ value : U32, rangeMap value 0 = 1) ∧
  (∀ v v' max : U32, v.toNat ≤ v'.toNat → (rangeMap v max).toNat ≤ (rangeMap v' max).toNat)

/-- R90: of the 2^32 values, result r in [1, max] is produced by exactly ceil(r x 2^32 / max) - ceil((r-1) x 2^32 / max). -/
def Obligations.RangeMapPreimageCount : Prop :=
  ∀ (max : U32) (r : Nat), 1 ≤ r → r ≤ max.toNat →
    ((Finset.range (2 ^ 32)).filter fun v => (rangeMap (BitVec.ofNat 32 v) max).toNat = r).card =
      (r * 2 ^ 32 + max.toNat - 1) / max.toNat - ((r - 1) * 2 ^ 32 + max.toNat - 1) / max.toNat

/-- R91, R95: SAMPLE completes from every state of `BlockState(W)`, for every max. It maps the word under the cursor. At
CUR = FW-1 that is the stale word of the fill before; CUR becomes 0, S advances one round and BUF takes its words.
Elsewhere CUR advances by 1. Nothing else changes, and the response is (OK, r, empty). -/
def Obligations.SampleConsumesOneWord : Prop :=
  ∀ (s : State) (max : U32), s.block.Wf → ∃ value, s.block.buf[s.block.cur]? = some value ∧
    (s.block.cur = 2 * s.block.lanes - 1 →
      exec (.sample max) s = .next { s with
        block := { s.block with
          cols := s.block.cols.map fun c => (stepColumn c).2
          buf := split (s.block.cols.map fun c => (stepColumn c).1)
          cur := 0 }
        responses := s.responses ++ [{ status := .ok, result := rangeMap value max, vec := [] }] }) ∧
    (s.block.cur < 2 * s.block.lanes - 1 →
      exec (.sample max) s = .next { s with
        block := { s.block with cur := s.block.cur + 1 }
        responses := s.responses ++ [{ status := .ok, result := rangeMap value max, vec := [] }] })

/-- R95, R122: on the zero state with a zero buffer every SAMPLE returns 1 with status OK, and the state stays zero. -/
def Obligations.UnseededSampleReturnsOne : Prop :=
  ∀ (s : State) (max : U32) (W : Nat), s.block.cols = List.replicate W Column.zero →
    s.block.buf = List.replicate (2 * W) 0 → s.block.cur < 2 * W →
    ∃ t, exec (.sample max) s = .next t ∧ t.block.cols = List.replicate W Column.zero ∧
      t.block.buf = List.replicate (2 * W) 0 ∧
      t.responses = s.responses ++ [{ status := .ok, result := 1, vec := [] }]

/-- R93: any FW consecutive SampleCore calls take exactly one Step: S has advanced one round, BUF is that round's
output, and CUR is back where it was. -/
def Obligations.OneStepPerBufferCycle : Prop :=
  ∀ (b : Block) (maxes : List U32), b.Wf → maxes.length = b.fw →
    ∃ rs, sampleCalls maxes b = some (rs, { b with cols := stepCols b.cols, buf := stepWords b.cols })

/-- R92: from a block whose cursor is at FW-1, as after reset, number consecutive SampleCore calls from 0. Call 0 maps
BUF[FW-1] as it was; call c+1 maps word c mod FW of refill c div FW + 1, whose words are the output of that many-th Step. -/
def Obligations.ConsumptionOrder : Prop :=
  ∀ (b : Block) (maxes : List U32), b.Wf → b.cur = b.fw - 1 →
    ∃ rs b', sampleCalls maxes b = some (rs, b') ∧ rs.length = maxes.length ∧
      (∀ m, maxes[0]? = some m → ∃ w, b.buf[b.fw - 1]? = some w ∧ rs[0]? = some (rangeMap w m)) ∧
      (∀ c m, maxes[c + 1]? = some m →
        ∃ w, (stepWords (stepCols^[c / b.fw] b.cols))[c % b.fw]? = some w ∧ rs[c + 1]? = some (rangeMap w m))

/-- R85, R147: a STEP before the SAMPLE at the refill boundary takes one round out of the stream: the SAMPLE still maps
the old BUF[FW-1], and the fill it makes is the output of the second round. -/
def Obligations.StepBeforeRefillRemovesOneRound : Prop :=
  ∀ (s : State) (max : U32), s.block.Wf → s.block.cur = s.block.fw - 1 →
    ∃ u t value r, exec .step s = .next u ∧ exec (.sample max) u = .next t ∧
      s.block.buf[s.block.fw - 1]? = some value ∧ t.block.buf = stepWords (stepCols s.block.cols) ∧
      t.responses = s.responses ++ [r, { status := .ok, result := rangeMap value max, vec := [] }]

/-! ### SEED -/

/-- R101: an entropy load puts the delivered bytes at the front of the vector's byte image, keeps the old bytes behind
them, and leaves the other vectors alone. -/
def Obligations.EntropyLoadKeepsUndeliveredBytes : Prop :=
  ∀ (v : VecId) (B : EntropyAnswer) (cols : List Column), B.length ≤ 8 * cols.length →
    (entropyLoad v B cols).length = cols.length ∧
    (∀ b, (bytesFromVec (vecOf v (entropyLoad v B cols)))[b]? =
      if b < B.length then B[b]? else (bytesFromVec (vecOf v cols))[b]?) ∧
    (∀ w, w ≠ v → vecOf w (entropyLoad v B cols) = vecOf w cols)

/-- R101, R102, R104: SEED completes wherever the port shows four answers of at most 8W bytes. S0..S3 take the delivered
bytes, each keeping its undelivered ones; then one SAMPLE 32767 runs on that state and its value is discarded; the
response is (OK, 0, empty), short answers or not. What the port shows is the model's list (log 4); that one step takes
all it shows is log 5 (DEDUCED). -/
def Obligations.SeedCompletesOnFourAnswers : Prop :=
  ∀ (s : State) (B0 B1 B2 B3 : EntropyAnswer) (rest : List (Option EntropyAnswer)),
    s.block.Wf → s.block.seedProgress = none →
    s.entropy = some B0 :: some B1 :: some B2 :: some B3 :: rest →
    B0.length ≤ 8 * s.block.lanes → B1.length ≤ 8 * s.block.lanes →
    B2.length ≤ 8 * s.block.lanes → B3.length ≤ 8 * s.block.lanes →
    ∃ (cols : List Column) (u : State),
      cols.length = s.block.lanes ∧
      bytesFromVec (vecOf .s0 cols) = B0 ++ (bytesFromVec (vecOf .s0 s.block.cols)).drop B0.length ∧
      bytesFromVec (vecOf .s1 cols) = B1 ++ (bytesFromVec (vecOf .s1 s.block.cols)).drop B1.length ∧
      bytesFromVec (vecOf .s2 cols) = B2 ++ (bytesFromVec (vecOf .s2 s.block.cols)).drop B2.length ∧
      bytesFromVec (vecOf .s3 cols) = B3 ++ (bytesFromVec (vecOf .s3 s.block.cols)).drop B3.length ∧
      exec (.sample 32767) { s with block := { s.block with cols := cols }, entropy := rest } = .next u ∧
      exec .seed s = .next { u with responses := s.responses ++ [{ status := .ok, result := 0, vec := [] }] }

/-- R106: with four full answers, SEED does to S, BUF and CUR what LOAD_STATE with their concatenation followed by
SAMPLE 32767 does, and all three complete. What the port shows is the model's list (log 4); that one step takes all it
shows is log 5 (DEDUCED). -/
def Obligations.SeedEqualsLoadStateThenSample : Prop :=
  ∀ (s : State) (B0 B1 B2 B3 : EntropyAnswer) (rest : List (Option EntropyAnswer)),
    s.block.Wf → s.block.seedProgress = none →
    s.entropy = some B0 :: some B1 :: some B2 :: some B3 :: rest →
    B0.length = 8 * s.block.lanes → B1.length = 8 * s.block.lanes →
    B2.length = 8 * s.block.lanes → B3.length = 8 * s.block.lanes →
    ∃ t u w, exec .seed s = .next t ∧ exec (.loadState (B0 ++ B1 ++ B2 ++ B3)) s = .next u ∧
      exec (.sample 32767) u = .next w ∧ t.block = w.block

/-- R103 case 1 (as 90_conflicts.md C1 reads it): a SEED with CUR = FW-1, as after reset, leaves CUR = 0 and BUF filled
from the freshly loaded state, so that no generated word is discarded; S is one round past the loaded state. What the
port shows is the model's list (log 4); that one step takes all it shows is log 5 (DEDUCED). -/
def Obligations.FirstSeedPrimesTheBuffer : Prop :=
  ∀ (s : State) (B0 B1 B2 B3 : EntropyAnswer) (rest : List (Option EntropyAnswer)),
    s.block.Wf → s.block.cur = s.block.fw - 1 →
    s.entropy = some B0 :: some B1 :: some B2 :: some B3 :: rest →
    B0.length = 8 * s.block.lanes → B1.length = 8 * s.block.lanes →
    B2.length = 8 * s.block.lanes → B3.length = 8 * s.block.lanes →
    ∃ (cols : List Column) (t : State), bytesFromState cols = B0 ++ B1 ++ B2 ++ B3 ∧ cols.length = s.block.lanes ∧
      exec .seed s = .next t ∧ t.block.cur = 0 ∧ t.block.buf = stepWords cols ∧ t.block.cols = stepCols cols

/-- R103 case 2, R148: after a SEED issued with CUR = c < FW-1, BUF is unchanged and the next FW-1-c SampleCore calls
still map the old words BUF[c+1], ..., BUF[FW-1]. The SEED is one that ends in the step that takes it (log 5, DEDUCED). -/
def Obligations.ReseedLatency : Prop :=
  ∀ (s t : State) (maxes : List U32), s.block.Wf → s.block.cur < s.block.fw - 1 → exec .seed s = .next t →
    t.block.seedProgress = none → maxes.length = s.block.fw - 1 - s.block.cur →
    t.block.buf = s.block.buf ∧ t.block.cur = s.block.cur + 1 ∧
    ∃ rs b', sampleCalls maxes t.block = some (rs, b') ∧
      ∀ j m, maxes[j]? = some m →
        ∃ w, s.block.buf[s.block.cur + 1 + j]? = some w ∧ rs[j]? = some (rangeMap w m)

/-- R104: when every answer is empty from reset, SEED still completes with status OK, and S and BUF stay zero. What the
port shows is the model's list (log 4); that one step takes all it shows is log 5 (DEDUCED). -/
def Obligations.SeedWithoutEntropyStaysZero : Prop :=
  ∀ (W : Nat) (rest : List (Option EntropyAnswer)), 1 ≤ W →
    exec .seed { State.resetOf W with entropy := some [] :: some [] :: some [] :: some [] :: rest } =
      .next { State.resetOf W with
        block := { Block.resetOf W with cur := 0 }
        entropy := rest
        responses := [{ status := .ok, result := 0, vec := [] }] }

/-- R102, R133: where the port shows no answer to its first request SEED holds: only `seedProgress` changes, there is no
response, and while the port stays silent every further step changes nothing. -/
def Obligations.SeedHoldsOnASilentPort : Prop :=
  ∀ s : State, s.entropy = [] → s.resetIn = [] →
    exec .seed s = .next { s with
      block := { s.block with seedProgress := some { vec := .s0, loaded := s.block.cols } } } ∧
    ∀ v, s.block.seedProgress = some { vec := v, loaded := s.block.cols } → step s = .next s

/-- R101, R102, R133: waiting changes nothing. A SEED that finds fewer than four answers and then a step without one
holds; the next step does exactly what SEED does with the wait left out. That a `none` in the list is a step in which the
request stays unanswered is the model's choice (log 4); that a wait is where SEED's step ends, and that the next step takes
every answer the port then shows, is log 5 (DEDUCED). -/
def Obligations.WaitingChangesNothing : Prop :=
  ∀ (s t : State) (Bs : List EntropyAnswer) (rest : List (Option EntropyAnswer)), s.resetIn = [] → Bs.length < 4 →
    s.entropy = Bs.map some ++ none :: rest → exec .seed s = .next t →
    t.block.seedProgress ≠ none ∧ t.responses = s.responses ∧
    step t = exec .seed { s with entropy := Bs.map some ++ rest }

/-- R130, R133: while a SEED is outstanding no command is taken: the host's list stays as it is, and the step either
goes on holding, with BUF, CUR and the responses unchanged, or ends the SEED with its one response. Into which steps a
SEED falls is log 5 (DEDUCED); the host's list is the model's (log 3). -/
def Obligations.HeldSeedTakesNoCommand : Prop :=
  ∀ s t : State, s.block.seedProgress ≠ none → s.resetIn.headD false = false → step s = .next t →
    t.host = s.host ∧
    ((t.block.seedProgress ≠ none ∧ t.responses = s.responses ∧ t.block.buf = s.block.buf ∧ t.block.cur = s.block.cur) ∨
     (t.block.seedProgress = none ∧ t.responses = s.responses ++ [{ status := .ok, result := 0, vec := [] }]))

/-! ### State transfer -/

/-- R105, R45: LOAD_STATE completes for every payload of 32W bytes: the byte images of S0, S1, S2, S3 become the payload,
in that order; BUF, CUR and everything else are unchanged; the response is (OK, 0, empty). With any other length it is
refused (R65). -/
def Obligations.LoadStateWritesThePayload : Prop :=
  ∀ (s : State) (p : List Byte),
    (p.length = 32 * s.block.lanes → ∃ cols : List Column,
      cols.length = s.block.lanes ∧
      bytesFromVec (vecOf .s0 cols) ++ bytesFromVec (vecOf .s1 cols) ++ bytesFromVec (vecOf .s2 cols) ++
        bytesFromVec (vecOf .s3 cols) = p ∧
      exec (.loadState p) s = .next { s with
        block := { s.block with cols := cols }
        responses := s.responses ++ [{ status := .ok, result := 0, vec := [] }] }) ∧
    (p.length ≠ 32 * s.block.lanes → exec (.loadState p) s = .refused .wrongPayloadLength)

/-- R107: READ_STATE completes from every state, changes nothing, and returns the byte images of S0, S1, S2, S3. -/
def Obligations.ReadStateReturnsTheImages : Prop :=
  ∀ s : State, exec .readState s = .next { s with
    responses := s.responses ++ [{
      status := .ok
      result := 0
      vec := bytesFromVec (vecOf .s0 s.block.cols) ++ bytesFromVec (vecOf .s1 s.block.cols) ++
        bytesFromVec (vecOf .s2 s.block.cols) ++ bytesFromVec (vecOf .s3 s.block.cols) }] }

/-- R105, R107: READ_STATE after LOAD_STATE returns the payload that was loaded. -/
def Obligations.ReadAfterLoadReturnsThePayload : Prop :=
  ∀ (s : State) (p : List Byte), p.length = 32 * s.block.lanes →
    ∃ u t, exec (.loadState p) s = .next u ∧ exec .readState u = .next t ∧ t.block = u.block ∧
      t.responses = s.responses ++
        [{ status := .ok, result := 0, vec := [] }, { status := .ok, result := 0, vec := p }]

/-! ### All commands -/

/-- R22, R27, R32, R37: what each command may write. BUF changes only in a refill, that is by SAMPLE or SEED's warm-up at
CUR = FW-1; CUR only by SAMPLE or SEED; S never by READ_STATE, and by SAMPLE only in a refill; no command touches the
host's list or the reset input, and only SEED the entropy port: these three lists are the model's (logs 3, 4, 7). -/
def Obligations.WritersOfEachRegister : Prop :=
  ∀ (i : Instr) (s t : State), exec i s = .next t →
    (t.block.buf ≠ s.block.buf → s.block.cur = s.block.fw - 1 ∧ (i = .seed ∨ ∃ max, i = .sample max)) ∧
    (t.block.cur ≠ s.block.cur → i = .seed ∨ ∃ max, i = .sample max) ∧
    (t.block.cols ≠ s.block.cols → i ≠ .readState ∧ ∀ max, i = .sample max → s.block.cur = s.block.fw - 1) ∧
    (t.block.seedProgress ≠ s.block.seedProgress → i = .seed) ∧
    (t.entropy ≠ s.entropy → i = .seed) ∧ t.host = s.host ∧ t.resetIn = s.resetIn

/-- R66: every command ends with exactly one response, of status OK; `result` is 0 but for SAMPLE; `vec` has 4 FW bytes
for STEP, 32W for READ_STATE, and is empty otherwise. A SEED that holds has not ended (its step does: log 5, DEDUCED). -/
def Obligations.OneResponsePerCommand : Prop :=
  ∀ (i : Instr) (s t : State), exec i s = .next t →
    (i = .seed ∧ t.block.seedProgress ≠ none ∧ t.responses = s.responses) ∨
    ∃ r, t.responses = s.responses ++ [r] ∧ r.status = .ok ∧ ((∀ max, i ≠ .sample max) → r.result = 0) ∧
      (i = .step → r.vec.length = 4 * s.block.fw) ∧ (i = .readState → r.vec.length = 32 * s.block.lanes) ∧
      (i ≠ .step → i ≠ .readState → r.vec = [])

/-- R28, R37: BUF and CUR are read by SAMPLE and SEED only. The effect of any other command on S and its response are
the same whatever BUF and CUR hold, and both stay as they are. -/
def Obligations.BufferAndCursorAreHidden : Prop :=
  ∀ (i : Instr) (s t : State) (buf : List U32) (cur : Nat), i ≠ .seed → (∀ max, i ≠ .sample max) →
    exec i s = .next t →
    t.block.buf = s.block.buf ∧ t.block.cur = s.block.cur ∧
    exec i { s with block := { s.block with buf := buf, cur := cur } } =
      .next { t with block := { t.block with buf := buf, cur := cur } }

/-! ### The exception, the interface, reset -/

/-- R121: an illegal word changes nothing of the block and gets the response (ILLEGAL, 0, empty), of status code 0b01;
the host's next transaction is then at the port. The word alone decides, whatever payload comes with it: that R65 does not
refuse such a transaction first is the model's reading (log 9, DEDUCED). The host's list and the reset samples are the
model's (logs 3, 7). -/
def Obligations.IllegalCommandOnlyResponds : Prop :=
  Status.illegal.code = 0b01 ∧
  ∀ (s : State) (t : Transaction) (rest : List Transaction),
    s.resetIn.headD false = false → s.block.seedProgress = none → s.host = t :: rest →
    (t.cmd.extractLsb' 0 8 = 0 ∨ 6 ≤ (t.cmd.extractLsb' 0 8).toNat ∨ t.cmd.extractLsb' 8 24 ≠ 0 ∨
      (t.cmd.extractLsb' 32 32 ≠ 0 ∧ t.cmd.extractLsb' 0 8 ≠ 2)) →
    step s = .next { s with
      host := rest
      resetIn := s.resetIn.tail
      responses := s.responses ++ [{ status := .illegal, result := 0, vec := [] }] }

/-- When the transaction at the port decodes to a command, no SEED is outstanding and reset is not asserted, the step is
that command on the state with the transaction taken and the reset sample used up (R52, R130; the host's list and the
reset samples are the model's, logs 3 and 7). -/
def Obligations.StepRunsTheDecodedCommand : Prop :=
  ∀ (s : State) (t : Transaction) (rest : List Transaction) (i : Instr),
    s.resetIn.headD false = false → s.block.seedProgress = none → s.host = t :: rest →
    decode s.block.lanes t = .command i →
    step s = exec i { s with host := rest, resetIn := s.resetIn.tail }

/-- R52, R66, R121, R130, R136: a host's list of n transactions without SEED and without a payload of the wrong length is
worked off in order. After k steps, for every k up to n, the first k are gone and the first k responses are there. Step j
runs transaction j and adds response j: for a legal word it is the command on the state after j steps, with status OK; for
an illegal word nothing but the response (ILLEGAL, 0, empty). The host's list is the model's (log 3); an illegal word that
carries a payload gets that response too (log 9, DEDUCED). -/
def Obligations.HostListIsWorkedOffInOrder : Prop :=
  ∀ s : State, s.Inv → s.block.seedProgress = none → s.resetIn = [] →
    (∀ t ∈ s.host, decode s.block.lanes t ≠ .wrongPayloadLength ∧ decode s.block.lanes t ≠ .command .seed) →
    ∃ rs : List Response, rs.length = s.host.length ∧
      (∀ k, k ≤ s.host.length → ∃ u : State, Host.Core.run core k s = .next u ∧ u.Inv ∧ u.host = s.host.drop k ∧
        u.responses = s.responses ++ rs.take k) ∧
      (∀ (j : Nat) (t : Transaction) (r : Response), s.host[j]? = some t → rs[j]? = some r →
        ∃ u v : State, Host.Core.run core j s = .next u ∧ Host.Core.run core (j + 1) s = .next v ∧
          v.responses = u.responses ++ [r] ∧
          (∀ i, decodeWord t.cmd t.payload = some i →
            r.status = .ok ∧ exec i { u with host := s.host.drop (j + 1) } = .next v) ∧
          (decodeWord t.cmd t.payload = none → v = { u with
            host := s.host.drop (j + 1)
            responses := u.responses ++ [{ status := .illegal, result := 0, vec := [] }] }))

/-- R65, U14: a legal word with a payload of another length than its opcode fixes is refused at the interface. That the
model stops there is log 10 (DEDUCED). -/
def Obligations.WrongPayloadLengthIsRefused : Prop :=
  ∀ (s : State) (t : Transaction) (rest : List Transaction) (i : Instr),
    s.resetIn.headD false = false → s.block.seedProgress = none → s.host = t :: rest →
    decodeWord t.cmd t.payload = some i → t.payload.length ≠ i.payloadSize s.block.lanes →
    step s = .refused .wrongPayloadLength

/-- R52: with no command at the port nothing of the block changes and there is no response. That an empty list is a host
with no command is the model's choice (log 3). -/
def Obligations.NothingHappensBetweenCommands : Prop :=
  ∀ s : State, s.resetIn.headD false = false → s.block.seedProgress = none → s.host = [] →
    step s = .next { s with resetIn := s.resetIn.tail }

/-- R123, R141: reset asserted loads the reset table from any state, a SEED that holds included; no command is taken and
no response is given; the lane count stays. That reset is sampled once a step is the model's choice (log 7). -/
def Obligations.ResetTakesPriority : Prop :=
  ∀ (s : State) (rest : List Bool), s.resetIn = true :: rest →
    step s = .next { s with block := (State.resetOf s.block.lanes).block, resetIn := rest }
end

