-- ==== Sys2Proof/Laws/State.lean ====
section
/-! SUPPORT. One lemma per field per update of the state. -/

namespace Sys2Proof.Machine

/-! ### Respond -/

@[simp] theorem respond_block (st : Status) (r : U32) (v : List Byte) (s : State) : (s.respond st r v).block = s.block := rfl
@[simp] theorem respond_host (st : Status) (r : U32) (v : List Byte) (s : State) : (s.respond st r v).host = s.host := rfl
@[simp] theorem respond_entropy (st : Status) (r : U32) (v : List Byte) (s : State) : (s.respond st r v).entropy = s.entropy := rfl
@[simp] theorem respond_resetIn (st : Status) (r : U32) (v : List Byte) (s : State) : (s.respond st r v).resetIn = s.resetIn := rfl
@[simp] theorem respond_responses (st : Status) (r : U32) (v : List Byte) (s : State) :
    (s.respond st r v).responses = s.responses ++ [{ status := st, result := r, vec := v }] := rfl

/-! ### The block -/

@[simp] theorem withBlock_block (b : Block) (s : State) : (s.withBlock b).block = b := rfl
@[simp] theorem withBlock_host (b : Block) (s : State) : (s.withBlock b).host = s.host := rfl
@[simp] theorem withBlock_entropy (b : Block) (s : State) : (s.withBlock b).entropy = s.entropy := rfl
@[simp] theorem withBlock_resetIn (b : Block) (s : State) : (s.withBlock b).resetIn = s.resetIn := rfl
@[simp] theorem withBlock_responses (b : Block) (s : State) : (s.withBlock b).responses = s.responses := rfl

@[simp] theorem holdAt_cols (v : VecId) (b : Block) : (b.holdAt v).cols = b.cols := rfl
@[simp] theorem holdAt_buf (v : VecId) (b : Block) : (b.holdAt v).buf = b.buf := rfl
@[simp] theorem holdAt_cur (v : VecId) (b : Block) : (b.holdAt v).cur = b.cur := rfl
@[simp] theorem holdAt_seedProgress (v : VecId) (b : Block) :
    (b.holdAt v).seedProgress = some { vec := v, loaded := b.cols } := rfl
@[simp] theorem holdAt_lanes (v : VecId) (b : Block) : (b.holdAt v).lanes = b.lanes := rfl

/-! ### The reset input and the exception -/

@[simp] theorem popReset_block (s : State) : s.popReset.block = s.block := rfl
@[simp] theorem popReset_host (s : State) : s.popReset.host = s.host := rfl
@[simp] theorem popReset_entropy (s : State) : s.popReset.entropy = s.entropy := rfl
@[simp] theorem popReset_resetIn (s : State) : s.popReset.resetIn = s.resetIn.tail := rfl
@[simp] theorem popReset_responses (s : State) : s.popReset.responses = s.responses := rfl

@[simp] theorem takeReset_block (s : State) : s.takeReset.block = Block.resetOf s.block.lanes := rfl
@[simp] theorem takeReset_host (s : State) : s.takeReset.host = s.host := rfl
@[simp] theorem takeReset_entropy (s : State) : s.takeReset.entropy = s.entropy := rfl
@[simp] theorem takeReset_resetIn (s : State) : s.takeReset.resetIn = s.resetIn := rfl
@[simp] theorem takeReset_responses (s : State) : s.takeReset.responses = s.responses := rfl

@[simp] theorem raiseIllegal_block (s : State) : s.raiseIllegal.block = s.block := rfl
@[simp] theorem raiseIllegal_host (s : State) : s.raiseIllegal.host = s.host := rfl
@[simp] theorem raiseIllegal_entropy (s : State) : s.raiseIllegal.entropy = s.entropy := rfl
@[simp] theorem raiseIllegal_resetIn (s : State) : s.raiseIllegal.resetIn = s.resetIn := rfl
@[simp] theorem raiseIllegal_responses (s : State) :
    s.raiseIllegal.responses = s.responses ++ [{ status := .illegal, result := 0, vec := [] }] := rfl

/-! ### The next transaction -/

@[simp] theorem placeNext_host (t : Transaction) (s : State) : (placeNext t s).host = t :: s.host := rfl
@[simp] theorem placeNext_resetIn (t : Transaction) (s : State) : (placeNext t s).resetIn = false :: s.resetIn := rfl
@[simp] theorem placeNext_entropy (t : Transaction) (s : State) : (placeNext t s).entropy = s.entropy := rfl
@[simp] theorem placeNext_responses (t : Transaction) (s : State) : (placeNext t s).responses = s.responses := rfl
@[simp] theorem placeNext_seedProgress (t : Transaction) (s : State) : (placeNext t s).block.seedProgress = none := rfl

/-! ### The reset block -/

@[simp] theorem resetOf_lanes (W : Nat) : (Block.resetOf W).lanes = W := by simp [Block.resetOf, Block.lanes]
@[simp] theorem resetOf_seedProgress (W : Nat) : (Block.resetOf W).seedProgress = none := rfl

/-! ### Components of a column -/

@[simp] theorem get_set_same (v : VecId) (x : U64) (c : Column) : (c.set v x).get v = x := by cases v <;> rfl

theorem get_set_other {v w : VecId} (h : w ≠ v) (x : U64) (c : Column) : (c.set v x).get w = c.get w := by
  cases v <;> cases w <;> first | rfl | exact absurd rfl h

end Sys2Proof.Machine
end

