-- ==== Sys2Proof/Laws/Bytes.lean ====
section
/-! SUPPORT. The byte layouts: lengths, and the two directions of each round trip (R44, R62). -/

namespace Sys2Proof

@[simp] theorem length_leBytes {w : Nat} (n : Nat) (x : BitVec w) : (leBytes n x).length = n := by simp [leBytes]

/-- Byte m of the first n bytes of `x`. -/
theorem getElem?_leBytes {w n m : Nat} (x : BitVec w) (h : m < n) :
    (leBytes n x)[m]? = some (x.extractLsb' (8 * m) 8) := by simp [leBytes, h]

/-- The low byte of an append. -/
theorem extractLsb'_append_low {n : Nat} (a : BitVec n) (b : Byte) : (a ++ b).extractLsb' 0 8 = b := by
  ext i hi
  simp [BitVec.getLsbD_append, hi]

/-- A byte above the low one of an append. -/
theorem extractLsb'_append_high {n : Nat} (a : BitVec n) (b : Byte) (s : Nat) (hs : 8 ≤ s) :
    (a ++ b).extractLsb' s 8 = a.extractLsb' (s - 8) 8 := by
  ext i hi
  simp [BitVec.getLsbD_append, show ¬ (s + i < 8) by omega, show s + i - 8 = s - 8 + i by omega]

/-- The eight bytes of eight bytes put together. -/
theorem leBytes_u64OfBytes (b0 b1 b2 b3 b4 b5 b6 b7 : Byte) :
    leBytes 8 (u64OfBytes b0 b1 b2 b3 b4 b5 b6 b7) = [b0, b1, b2, b3, b4, b5, b6, b7] := by
  simp only [leBytes, u64OfBytes, List.range, List.range.loop, List.map, List.cons.injEq, and_true]
  refine ⟨?_, ?_, ?_, ?_, ?_, ?_, ?_, ?_⟩ <;>
  · repeat first
      | exact extractLsb'_append_low _ _
      | exact BitVec.extractLsb'_eq_self
      | refine (extractLsb'_append_high _ _ _ (by decide)).trans ?_

/-- Eight bytes of a lane put together again. -/
theorem u64OfBytes_extract (x : U64) :
    u64OfBytes (x.extractLsb' 0 8) (x.extractLsb' 8 8) (x.extractLsb' 16 8) (x.extractLsb' 24 8)
      (x.extractLsb' 32 8) (x.extractLsb' 40 8) (x.extractLsb' 48 8) (x.extractLsb' 56 8) = x := by
  unfold u64OfBytes
  repeat rw [BitVec.extractLsb'_append_extractLsb'_eq_extractLsb' (by rfl)]
  exact BitVec.extractLsb'_eq_self

/-- The bytes of a word give the word back, whatever follows them. -/
theorem transactionOfBytes_bytesOfTransaction (t : Transaction) : transactionOfBytes (bytesOfTransaction t) = some t := by
  show some (Transaction.mk (u64OfBytes _ _ _ _ _ _ _ _) ([] ++ t.payload)) = some t
  exact congrArg (fun c => some (Transaction.mk c t.payload)) (u64OfBytes_extract t.cmd)

namespace Machine

@[simp] theorem bytesFromVec_nil : bytesFromVec [] = [] := rfl

theorem bytesFromVec_cons (x : U64) (V : List U64) : bytesFromVec (x :: V) = leBytes 8 x ++ bytesFromVec V := rfl

@[simp] theorem length_bytesFromVec (V : List U64) : (bytesFromVec V).length = 8 * V.length := by
  induction V with
  | nil => rfl
  | cons x V ih => simp [bytesFromVec_cons, ih]; omega

/-- The lanes of eight bytes and what follows them. -/
theorem vecFromBytes_append (x : U64) (B : List Byte) : vecFromBytes (leBytes 8 x ++ B) = x :: vecFromBytes B :=
  congrArg (· :: vecFromBytes B) (u64OfBytes_extract x)

theorem vecFromBytes_bytesFromVec (V : List U64) : vecFromBytes (bytesFromVec V) = V := by
  induction V with
  | nil => rfl
  | cons x V ih => rw [bytesFromVec_cons, vecFromBytes_append, ih]

theorem bytesFromVec_vecFromBytes {n : Nat} : ∀ {B : List Byte}, B.length = 8 * n → bytesFromVec (vecFromBytes B) = B := by
  induction n with
  | zero => intro B h; rw [List.eq_nil_of_length_eq_zero h]; rfl
  | succ n ih =>
    intro B h
    match B, h with
    | b0 :: b1 :: b2 :: b3 :: b4 :: b5 :: b6 :: b7 :: rest, h =>
      rw [vecFromBytes, bytesFromVec_cons, leBytes_u64OfBytes, ih (by simp at h; omega)]
      rfl

theorem length_vecFromBytes {n : Nat} {B : List Byte} (h : B.length = 8 * n) : (vecFromBytes B).length = n := by
  have := congrArg List.length (bytesFromVec_vecFromBytes h)
  simp at this
  omega

/-! ### Vectors of a list of columns -/

@[simp] theorem length_vecOf (v : VecId) (cols : List Column) : (vecOf v cols).length = cols.length := by simp [vecOf]

@[simp] theorem length_setVec (v : VecId) (V : List U64) (cols : List Column) :
    (setVec v V cols).length = min cols.length V.length := by simp [setVec]

/-- A vector just written reads back. -/
theorem vecOf_setVec_same (v : VecId) {V : List U64} {cols : List Column} (h : V.length = cols.length) :
    vecOf v (setVec v V cols) = V := by
  apply List.ext_getElem
  · simp [h]
  · intro k _ _
    simp [vecOf, setVec]

/-- Writing one vector leaves the others. -/
theorem vecOf_setVec_other {v w : VecId} (hw : w ≠ v) {V : List U64} {cols : List Column} (h : V.length = cols.length) :
    vecOf w (setVec v V cols) = vecOf w cols := by
  apply List.ext_getElem
  · simp [h]
  · intro k _ _
    simp [vecOf, setVec, get_set_other hw]

/-- A list of columns is its four vectors. -/
theorem cols_ext {a b : List Column} (h : ∀ v, vecOf v a = vecOf v b) : a = b := by
  have hl : a.length = b.length := by simpa using congrArg List.length (h .s0)
  apply List.ext_getElem hl
  intro k ha hb
  have hv (v : VecId) : a[k].get v = b[k].get v := by
    have := congrArg (·[k]?) (h v)
    simpa [vecOf, ha, hb] using this
  have h0 := hv .s0; have h1 := hv .s1; have h2 := hv .s2; have h3 := hv .s3
  revert h0 h1 h2 h3
  cases a[k]; cases b[k]
  intro h0 h1 h2 h3
  simp only [Column.get] at h0 h1 h2 h3
  subst h0 h1 h2 h3
  rfl

/-! ### Entropy loads -/

theorem length_overlay {B img : List Byte} (h : B.length ≤ img.length) : (overlay B img).length = img.length := by
  simp [overlay]; omega

theorem length_loaded_vec (v : VecId) {B : EntropyAnswer} {cols : List Column} (h : B.length ≤ 8 * cols.length) :
    (vecFromBytes (overlay B (bytesFromVec (vecOf v cols)))).length = cols.length :=
  length_vecFromBytes (by rw [length_overlay (by simpa using h)]; simp)

/-- An entropy load keeps the lane count. -/
theorem length_entropyLoad (v : VecId) {B : EntropyAnswer} {cols : List Column} (h : B.length ≤ 8 * cols.length) :
    (entropyLoad v B cols).length = cols.length := by
  simp [entropyLoad, length_loaded_vec v h]

end Machine
end Sys2Proof
end

