-- ==== Sys2Proof/Laws/Decode.lean ====
section
/-! SUPPORT. The fields of a command word, and what the decoder answers (R61, R67). -/

namespace Sys2Proof

/-- The low field of three fields put together. -/
theorem extractLsb'_fields_low {n m k : Nat} (a : BitVec n) (b : BitVec m) (c : BitVec k) :
    (a ++ b ++ c).extractLsb' 0 k = c := by
  ext i hi
  simp [BitVec.getLsbD_append, hi]

/-- The middle field. -/
theorem extractLsb'_fields_middle {n m k : Nat} (a : BitVec n) (b : BitVec m) (c : BitVec k) :
    (a ++ b ++ c).extractLsb' k m = b := by
  ext i hi
  simp [BitVec.getLsbD_append, show ¬ (k + i < k) by omega, hi]

/-- The high field. -/
theorem extractLsb'_fields_high {n m k : Nat} (a : BitVec n) (b : BitVec m) (c : BitVec k) :
    (a ++ b ++ c).extractLsb' (k + m) n = a := by
  ext i hi
  simp [BitVec.getLsbD_append, show ¬ (k + m + i < k) by omega, show k + m + i - k = m + i by omega,
    BitVec.getLsbD_eq_getElem hi]

@[simp] theorem opcOf_commandWord (opc : BitVec 8) (imm : U32) : opcOf (commandWord opc imm) = opc :=
  extractLsb'_fields_low imm 0 opc

@[simp] theorem rsvOf_commandWord (opc : BitVec 8) (imm : U32) : rsvOf (commandWord opc imm) = 0 :=
  extractLsb'_fields_middle imm 0 opc

@[simp] theorem immOf_commandWord (opc : BitVec 8) (imm : U32) : immOf (commandWord opc imm) = imm :=
  extractLsb'_fields_high imm 0 opc

/-- A word is its three fields put together. -/
theorem word_of_fields (cmd : U64) : immOf cmd ++ rsvOf cmd ++ opcOf cmd = cmd := by
  unfold immOf rsvOf opcOf
  rw [BitVec.extractLsb'_append_extractLsb'_eq_extractLsb' (by rfl),
    BitVec.extractLsb'_append_extractLsb'_eq_extractLsb' (by rfl)]
  exact BitVec.extractLsb'_eq_self

/-- A word whose reserved field is 0 is the command word of its other two. -/
theorem commandWord_of_fields {cmd : U64} (h : rsvOf cmd = 0) : commandWord (opcOf cmd) (immOf cmd) = cmd := by
  have := word_of_fields cmd
  rwa [h] at this

/-- Everything the decode algorithm can answer: the fields of the word and the command read from it. -/
theorem decodeWord_cases {cmd : U64} {p : List Byte} {i : Instr} (h : decodeWord cmd p = some i) :
    rsvOf cmd = 0 ∧
      ((opcOf cmd = 0x01 ∧ immOf cmd = 0 ∧ i = .seed) ∨ (opcOf cmd = 0x02 ∧ i = .sample (immOf cmd)) ∨
        (opcOf cmd = 0x03 ∧ immOf cmd = 0 ∧ i = .step) ∨ (opcOf cmd = 0x04 ∧ immOf cmd = 0 ∧ i = .loadState p) ∨
        (opcOf cmd = 0x05 ∧ immOf cmd = 0 ∧ i = .readState)) := by
  unfold decodeWord at h
  split at h
  · cases h
  · rename_i hr
    refine ⟨Decidable.not_not.mp hr, ?_⟩
    repeat' split at h
    all_goals first
      | (cases h; done)
      | (cases h; simp_all)

/-- The decode algorithm refuses a word by the last case of R67, a reserved field, or an immediate. -/
theorem decodeWord_none_cases {cmd : U64} {p : List Byte} (h : decodeWord cmd p = none) :
    rsvOf cmd ≠ 0 ∨
      (opcOf cmd ≠ 0x01 ∧ opcOf cmd ≠ 0x02 ∧ opcOf cmd ≠ 0x03 ∧ opcOf cmd ≠ 0x04 ∧ opcOf cmd ≠ 0x05) ∨
      (immOf cmd ≠ 0 ∧ opcOf cmd ≠ 0x02) := by
  by_cases hr : rsvOf cmd = 0
  · right
    by_cases hi : immOf cmd = 0
    · left; simp only [decodeWord, hr, hi] at h
      refine ⟨?_, ?_, ?_, ?_, ?_⟩ <;> (intro ho; simp [ho] at h)
    · right
      refine ⟨hi, ?_⟩
      intro ho; simp [decodeWord, hr, ho] at h
  · exact .inl hr

/-- The decoder's answer on a transaction. -/
theorem decode_command {W : Nat} {t : Transaction} {i : Instr} (h : decodeWord t.cmd t.payload = some i)
    (hp : t.payload.length = i.payloadSize W) : decode W t = .command i := by
  simp [decode, h, hp]

end Sys2Proof
end

