-- ==== Sys2Proof/Laws/Ops.lean ====
section
/-! SUPPORT. What the shared operations can do, said once: Step (R80), SampleCore (R91), the SEED sequence (R102). -/

namespace Sys2Proof.Machine

/-! ### Step -/

@[simp] theorem length_stepCols (cols : List Column) : (stepCols cols).length = cols.length := by simp [stepCols]

@[simp] theorem length_split (rs : List U64) : (split rs).length = 2 * rs.length := by
  induction rs with
  | nil => rfl
  | cons r rs ih => simp only [split, List.flatMap_cons, List.length_append] at *; simp [ih, halves]; omega

@[simp] theorem length_stepWords (cols : List Column) : (stepWords cols).length = 2 * cols.length := by simp [stepWords]

/-! ### SampleCore -/

/-- The block after a SampleCore call that finds the cursor at the last index. -/
def refilled (b : Block) : Block := { b with cols := stepCols b.cols, buf := stepWords b.cols, cur := 0 }

/-- The block after a SampleCore call that does not. -/
def advanced (b : Block) : Block := { b with cur := b.cur + 1 }

theorem sampleCore_refill {b : Block} {value : U32} (max : U32) (h : b.cur = b.fw - 1) (hv : b.buf[b.cur]? = some value) :
    b.sampleCore max = some (rangeMap value max, refilled b) := by
  have hv' : b.buf[b.fw - 1]? = some value := h ▸ hv
  simp only [Block.sampleCore, h, hv', if_true]
  rfl

theorem sampleCore_read {b : Block} {value : U32} (max : U32) (h : b.cur ≠ b.fw - 1) (hv : b.buf[b.cur]? = some value) :
    b.sampleCore max = some (rangeMap value max, advanced b) := by
  simp only [Block.sampleCore, h, hv, if_false]
  rfl

theorem sampleCore_none {b : Block} (max : U32) (hv : b.buf[b.cur]? = none) : b.sampleCore max = none := by
  unfold Block.sampleCore
  split
  · rename_i h; rw [← h, hv]
  · rw [hv]

/-- Everything a SampleCore call can do. -/
theorem sampleCore_cases {b b' : Block} {max r : U32} (h : b.sampleCore max = some (r, b')) :
    ∃ value, b.buf[b.cur]? = some value ∧ r = rangeMap value max ∧
      ((b.cur = b.fw - 1 ∧ b' = refilled b) ∨ (b.cur ≠ b.fw - 1 ∧ b' = advanced b)) := by
  cases hv : b.buf[b.cur]? with
  | none => rw [sampleCore_none max hv] at h; cases h
  | some value =>
    refine ⟨value, rfl, ?_⟩
    by_cases hc : b.cur = b.fw - 1
    · rw [sampleCore_refill max hc hv] at h; cases h; exact ⟨rfl, .inl ⟨hc, rfl⟩⟩
    · rw [sampleCore_read max hc hv] at h; cases h; exact ⟨rfl, .inr ⟨hc, rfl⟩⟩

/-- A block whose cursor is on a buffer word answers a SampleCore call. -/
theorem sampleCore_answers {b : Block} (max : U32) (h : b.cur < b.buf.length) :
    ∃ r b', b.sampleCore max = some (r, b') := by
  have hv : b.buf[b.cur]? = some b.buf[b.cur] := by simp [h]
  by_cases hc : b.cur = b.fw - 1
  · exact ⟨_, _, sampleCore_refill max hc hv⟩
  · exact ⟨_, _, sampleCore_read max hc hv⟩

/-- SampleCore keeps the lane count and `seedProgress`. -/
theorem sampleCore_keeps {b b' : Block} {max r : U32} (h : b.sampleCore max = some (r, b')) :
    b'.lanes = b.lanes ∧ b'.seedProgress = b.seedProgress := by
  obtain ⟨_, _, _, ⟨_, rfl⟩ | ⟨_, rfl⟩⟩ := sampleCore_cases h <;> simp [refilled, advanced, Block.lanes]

/-- SampleCore keeps the sizes and the cursor's range. -/
theorem sampleCore_sizes {b b' : Block} {max r : U32} (h : b.sampleCore max = some (r, b')) (hp : 1 ≤ b.lanes)
    (hb : b.buf.length = b.fw) (hc : b.cur < b.fw) : b'.buf.length = b'.fw ∧ b'.cur < b'.fw := by
  obtain ⟨_, _, _, ⟨_, rfl⟩ | ⟨_, rfl⟩⟩ := sampleCore_cases h
  · simp [refilled, Block.fw, Block.lanes] at *; omega
  · simp [advanced, Block.fw, Block.lanes] at *; omega

/-! ### The SEED sequence -/

theorem seedRun_nil (s : State) : seedRun [] s = finishSeed s := rfl

theorem seedRun_empty {v : VecId} {vs : List VecId} {s : State} (h : s.entropy = []) :
    seedRun (v :: vs) s = .next (s.withBlock (s.block.holdAt v)) := by
  simp [seedRun, h]

theorem seedRun_unanswered {v : VecId} {vs : List VecId} {s : State} {rest : List (Option EntropyAnswer)}
    (h : s.entropy = none :: rest) :
    seedRun (v :: vs) s = .next { s with block := s.block.holdAt v, entropy := rest } := by
  simp only [seedRun, withBlock_entropy, h]
  rfl

theorem seedRun_answered {v : VecId} {vs : List VecId} {s : State} {B : EntropyAnswer}
    {rest : List (Option EntropyAnswer)} (h : s.entropy = some B :: rest) (hB : B.length ≤ 8 * s.block.lanes) :
    seedRun (v :: vs) s =
      seedRun vs { s with
        block := { s.block.holdAt v with cols := entropyLoad v B s.block.cols }
        entropy := rest } := by
  simp only [seedRun, withBlock_entropy, h, withBlock_block, holdAt_lanes, hB, if_true]
  rfl

theorem seedRun_tooLong {v : VecId} {vs : List VecId} {s : State} {B : EntropyAnswer}
    {rest : List (Option EntropyAnswer)} (h : s.entropy = some B :: rest) (hB : ¬ B.length ≤ 8 * s.block.lanes) :
    seedRun (v :: vs) s = .refused .entropyAnswerTooLong := by
  simp only [seedRun, withBlock_entropy, h, withBlock_block, holdAt_lanes, hB, if_false]

/-- The end of SEED from a block whose cursor is on a buffer word. -/
theorem finishSeed_cases (s : State) :
    (Block.sampleCore Config.warmUpMax { s.block with seedProgress := none } = none ∧
      finishSeed s = .fault .noBufferWord) ∨
    ∃ r b, Block.sampleCore Config.warmUpMax { s.block with seedProgress := none } = some (r, b) ∧
      finishSeed s = .next ((s.withBlock b).respond .ok 0 []) := by
  unfold finishSeed
  split
  · exact .inl ⟨‹_›, rfl⟩
  · rename_i r b h; exact .inr ⟨r, b, h, rfl⟩

/-- What the SEED sequence leaves alone, and how it ends: it holds at one of its vectors, or it is complete. -/
structure SeedOutcome (vs : List VecId) (s t : State) : Prop where
  host : t.host = s.host
  resetIn : t.resetIn = s.resetIn
  lanes : t.block.lanes = s.block.lanes
  entropy : t.entropy <:+ s.entropy
  ends :
    (∃ v ∈ vs, t.block.seedProgress = some { vec := v, loaded := t.block.cols } ∧ t.block.buf = s.block.buf ∧
      t.block.cur = s.block.cur ∧ t.responses = s.responses) ∨
    (∃ cols r, cols.length = s.block.lanes ∧
      Block.sampleCore Config.warmUpMax { s.block with cols := cols, seedProgress := none } = some (r, t.block) ∧
      t.responses = s.responses ++ [{ status := .ok, result := 0, vec := [] }])

/-- Everything the SEED sequence can do when it answers a next state. -/
theorem seedRun_next : ∀ {vs : List VecId} {s t : State}, seedRun vs s = .next t → SeedOutcome vs s t := by
  intro vs
  induction vs with
  | nil =>
    intro s t h
    rw [seedRun_nil] at h
    obtain ⟨_, hf⟩ | ⟨r, b, hs, hf⟩ := finishSeed_cases s
    · rw [hf] at h; cases h
    · rw [hf] at h
      cases h
      exact ⟨rfl, rfl, (sampleCore_keeps hs).1, List.suffix_refl _, .inr ⟨s.block.cols, r, rfl, hs, rfl⟩⟩
  | cons v vs ih =>
    intro s t h
    match he : s.entropy with
    | [] =>
      rw [seedRun_empty he] at h
      cases h
      exact ⟨rfl, rfl, rfl, List.suffix_refl _, .inl ⟨v, by simp, rfl, rfl, rfl, rfl⟩⟩
    | none :: rest =>
      rw [seedRun_unanswered he] at h
      cases h
      exact ⟨rfl, rfl, rfl, he ▸ List.suffix_cons _ _, .inl ⟨v, by simp, rfl, rfl, rfl, rfl⟩⟩
    | some B :: rest =>
      by_cases hB : B.length ≤ 8 * s.block.lanes
      · rw [seedRun_answered he hB] at h
        have hl := length_entropyLoad v (cols := s.block.cols) hB
        obtain ⟨h1, h2, h3, h4, h5⟩ := ih h
        refine ⟨h1, h2, h3.trans hl, h4.trans (he ▸ List.suffix_cons _ _), ?_⟩
        obtain ⟨w, hw, hrest⟩ | ⟨cols, r, hc, hrest⟩ := h5
        · exact .inl ⟨w, List.mem_cons_of_mem _ hw, hrest⟩
        · exact .inr ⟨cols, r, hc.trans hl, hrest⟩
      · rw [seedRun_tooLong he hB] at h; cases h

/-- The SEED sequence does not fault where the cursor is on a buffer word. -/
theorem seedRun_no_fault : ∀ {vs : List VecId} {s : State} {f : Fault}, s.block.cur < s.block.buf.length →
    seedRun vs s ≠ .fault f := by
  intro vs
  induction vs with
  | nil =>
    intro s f hc h
    rw [seedRun_nil] at h
    obtain ⟨hn, _⟩ | ⟨r, b, _, hf⟩ := finishSeed_cases s
    · obtain ⟨r, b, hs⟩ := sampleCore_answers (b := { s.block with seedProgress := none }) Config.warmUpMax hc
      rw [hs] at hn; cases hn
    · rw [hf] at h; cases h
  | cons v vs ih =>
    intro s f hc h
    match he : s.entropy with
    | [] => rw [seedRun_empty he] at h; cases h
    | none :: rest => rw [seedRun_unanswered he] at h; cases h
    | some B :: rest =>
      by_cases hB : B.length ≤ 8 * s.block.lanes
      · rw [seedRun_answered he hB] at h
        exact ih (s := { s with
          block := { s.block.holdAt v with cols := entropyLoad v B s.block.cols }
          entropy := rest }) hc h
      · rw [seedRun_tooLong he hB] at h; cases h

/-- The end of SEED does not read `seedProgress`. -/
theorem finishSeed_progress (s : State) (p : Option SeedProgress) :
    finishSeed { s with block := { s.block with seedProgress := p } } = finishSeed s := rfl

/-- The vectors after a sequence of entropy loads. -/
def loadAll (vs : List VecId) (Bs : List EntropyAnswer) (cols : List Column) : List Column :=
  (vs.zip Bs).foldl (fun cs p => entropyLoad p.1 p.2 cs) cols

/-- A SEED that finds all its answers loads each vector in turn, then ends. -/
theorem seedRun_all : ∀ {vs : List VecId} {Bs : List EntropyAnswer} {rest : List (Option EntropyAnswer)} {s : State},
    Bs.length = vs.length → (∀ B ∈ Bs, B.length ≤ 8 * s.block.lanes) → s.entropy = Bs.map some ++ rest →
    seedRun vs s =
      finishSeed { s with block := { s.block with cols := loadAll vs Bs s.block.cols }, entropy := rest } := by
  intro vs
  induction vs with
  | nil =>
    intro Bs rest s hl _ he
    rw [List.eq_nil_of_length_eq_zero hl] at he ⊢
    have he : s.entropy = rest := he
    subst he
    rfl
  | cons v vs ih =>
    intro Bs rest s hl hB he
    match Bs, hl with
    | B :: Bs, hl =>
      have hb := hB B (by simp)
      have hlen : (entropyLoad v B s.block.cols).length = s.block.lanes := length_entropyLoad v hb
      rw [seedRun_answered (rest := Bs.map some ++ rest) he hb, ih (Bs := Bs) (rest := rest) (by simpa using hl) ?_ rfl]
      · exact finishSeed_progress { s with
          block := { s.block with cols := loadAll (v :: vs) (B :: Bs) s.block.cols }
          entropy := rest } _
      · intro B' hB'
        show B'.length ≤ 8 * (entropyLoad v B s.block.cols).length
        rw [hlen]
        exact hB B' (List.mem_cons_of_mem _ hB')

/-! ### The step -/

/-- The step after `withFetchWord` runs the command of the placed word, on the state with no SEED outstanding. -/
theorem step_withFetchWord {s : State} {nbits w : Nat} {i : Instr}
    (h : decode s.block.lanes (tableTransaction s.block.lanes nbits w) = .command i) :
    step (s.withFetchWord nbits w) = exec i { s with block := { s.block with seedProgress := none } } := by
  have hl : decode (placeNext (tableTransaction s.block.lanes nbits w) s).block.lanes
      (tableTransaction s.block.lanes nbits w) = .command i := h
  simp only [step, State.withFetchWord, State.resetAsserted, placeNext_resetIn, List.headD_cons, Bool.false_eq_true,
    if_false, cycle, popReset_block, placeNext_seedProgress, popReset_host, placeNext_host, issue, hl]
  rfl

end Sys2Proof.Machine
end

