-- ==== Sys2Proof/Laws/PerInstr.lean ====
section
/-! SUPPORT. A family of statements made once per command: the encoding of a well-formed command decodes to it. -/

namespace Sys2Proof.Laws.DecodeEncode

/-- On a block with any lane count, the transaction of a well-formed command decodes to the command. -/
def Statement (i : Instr) : Prop := ∀ W : Nat, i.wf W = true → decode W (encode i) = .command i

theorem seed : Statement .seed := by
  intro W _
  exact decode_command (by simp [encode, decodeWord, Instr.opcode, Instr.immediate, Instr.payload]) rfl

theorem sample (max : U32) : Statement (.sample max) := by
  intro W _
  exact decode_command (by simp [encode, decodeWord, Instr.opcode, Instr.immediate, Instr.payload]) rfl

theorem step : Statement .step := by
  intro W _
  exact decode_command (by simp [encode, decodeWord, Instr.opcode, Instr.immediate, Instr.payload]) rfl

theorem loadState (p : List Byte) : Statement (.loadState p) := by
  intro W h
  exact decode_command (by simp [encode, decodeWord, Instr.opcode, Instr.immediate, Instr.payload])
    (beq_iff_eq.mp h)

theorem readState : Statement .readState := by
  intro W _
  exact decode_command (by simp [encode, decodeWord, Instr.opcode, Instr.immediate, Instr.payload]) rfl

end Sys2Proof.Laws.DecodeEncode
end

