-- ==== Sys2Proof/Tests/Slice0.lean ====
section
/-! SUPPORT. Tests. Expected values are the spec's own (95_test_vectors.md, 30_encoding.md R71). Then, for every statement
with hypotheses, a concrete input that meets them. -/

namespace Sys2Proof.Tests

open Sys2Proof Sys2Proof.Machine

/-! ### Helpers -/

/-- The state after an outcome, if it is a next state. -/
def after (o : Host.Outcome State Fault Refusal) : Option State :=
  match o with
  | .next s => some s
  | .fault _ => none
  | .refused _ => none

def refusalOf (o : Host.Outcome State Fault Refusal) : Option Refusal :=
  match o with
  | .next _ => none
  | .fault _ => none
  | .refused r => some r

def faultOf (o : Host.Outcome State Fault Refusal) : Option Fault :=
  match o with
  | .next _ => none
  | .fault f => some f
  | .refused _ => none

/-- A state with the given block registers and nothing waiting. -/
def stateOf (cols : List Column) (buf : List U32) (cur : Nat) : State :=
  { State.reset with block := { cols := cols, buf := buf, cur := cur, seedProgress := none } }

/-- S = (1, 2, 3, 4), W = 1, after reset otherwise: the start of ST-A and SM-C1. -/
def small : State := stateOf [⟨1, 2, 3, 4⟩] [0, 0] 1

/-- The four full answers of program P2. -/
def answers : List (Option EntropyAnswer) :=
  [some [0x00, 0x01, 0x02, 0x03, 0x04, 0x05, 0x06, 0x07], some [0x08, 0x09, 0x0A, 0x0B, 0x0C, 0x0D, 0x0E, 0x0F],
   some [0x10, 0x11, 0x12, 0x13, 0x14, 0x15, 0x16, 0x17], some [0x18, 0x19, 0x1A, 0x1B, 0x1C, 0x1D, 0x1E, 0x1F]]

def okResponse (r : U32) : Response := { status := .ok, result := r, vec := [] }

/-! ### WellFormed smoke -/

theorem test_loadState_wrong_length_is_ill_formed : (Instr.loadState (List.replicate 31 0)).wf 1 = false := by decide
theorem test_loadState_of_two_lanes_is_ill_formed_for_one : (Instr.loadState (List.replicate 64 0)).wf 1 = false := by decide
theorem test_loadState_wf : (Instr.loadState (List.replicate 64 0)).wf 2 = true := by decide

/-! ### Decoding: words written out bit by bit from R61, IMM RSV OPC, and section 2.7 of the test vectors -/

theorem test_decode_seed :
    decode 1 ⟨0b00000000000000000000000000000000_000000000000000000000000_00000001, []⟩ = .command .seed := by decide
theorem test_decode_sample :
    decode 1 ⟨0b00000000000000000000000000010100_000000000000000000000000_00000010, []⟩ = .command (.sample 20) := by decide
theorem test_decode_step :
    decode 1 ⟨0b00000000000000000000000000000000_000000000000000000000000_00000011, []⟩ = .command .step := by decide
theorem test_decode_loadState :
    decode 1 ⟨0b00000000000000000000000000000000_000000000000000000000000_00000100, List.replicate 32 7⟩ =
      .command (.loadState (List.replicate 32 7)) := by decide
theorem test_decode_readState :
    decode 1 ⟨0b00000000000000000000000000000000_000000000000000000000000_00000101, []⟩ = .command .readState := by decide
theorem test_decode_illegal :
    [0x0000000000000000, 0x0000000000000006, 0x00000000000000FF, 0x0000000100000003, 0x0000000100000001,
      0x0000000000000102, 0x8000000000000105, 0x0000000100000004, 0x0000000000010002].all
      (fun w => decode 1 ⟨w, []⟩ == .illegalCommand w) = true := by decide
theorem test_decode_bytes_least_significant_first :
    decodeBytes 1 [0x02, 0, 0, 0, 0x14, 0, 0, 0] = .transaction (.command (.sample 20)) := by decide
theorem test_decode_bytes_truncated : decodeBytes 1 [0x02, 0, 0, 0, 0x14, 0, 0] = .truncatedWord := by decide
theorem test_decodeTableWord :
    [1, 0x1400000002, 3, 4, 5, 0, 6].map (decodeTableWord 64) =
      [some .seed, some (.sample 20), some .step, some (.loadState (List.replicate 32 0)), some .readState, none, none] := by
  decide

/-! ### Assembly (R69, R71) -/

theorem test_assemble_comment_and_case :
    assembleLine 1 "sample 0xFFFFFFFF ; max".toList = some (some ⟨0xFFFFFFFF00000002, []⟩) := by decide
/-- The vector text of two lanes: an opening brace, `0x1, 2`, a closing brace. -/
def vecText : List Char := [Char.ofNat 123] ++ "0x1, 2".toList ++ [Char.ofNat 125]

theorem test_assemble_vectors :
    assembleLine 2 ("LOAD_STATE ".toList ++ vecText ++ [','] ++ vecText ++ [','] ++ vecText ++ [','] ++ vecText) =
      some (some (encode (.loadState ((List.replicate 4
        [1, 0, 0, 0, 0, 0, 0, 0, 2, 0, 0, 0, 0, 0, 0, (0 : Byte)]).flatten)))) := by decide
theorem test_assemble_raw_word_with_payload :
    assembleLine 1 ".word64 0x102 <01 fF>".toList = some (some ⟨0x102, [0x01, 0xFF]⟩) ∧
      assembleLine 1 "SAMPLE 4294967296".toList = none ∧ assembleLine 1 "  ; nothing".toList = some none := by decide

/-! ### Step (section 2.1, 2.3) -/

theorem test_step_ST_A :
    (after (exec .step small)).map (fun s => (s.block.cols, s.responses)) =
      some ([⟨0x7, 0x0, 0x40002, 0xC00000000000⟩], [⟨.ok, 0, [5, 0, 0, 0, 0, 0, 0, 0]⟩]) := by decide
theorem test_step_two_lanes_wrap :
    (after (exec .step (stateOf [⟨1, 2, 3, 4⟩, ⟨0xFFFFFFFFFFFFFFFF, 0, 0, 0xFFFFFFFFFFFFFFFF⟩] [0, 0, 0, 0] 3))).map
      (fun s => (s.block, s.responses)) =
      some ({ cols := [⟨0x7, 0x0, 0x40002, 0xC00000000000⟩, ⟨0, 0xFFFFFFFFFFFFFFFF, 0xFFFFFFFFFFFFFFFF, 0xFFFFFFFFFFFFFFFF⟩]
              buf := [0, 0, 0, 0], cur := 3, seedProgress := none },
            [⟨.ok, 0, [5, 0, 0, 0, 0, 0, 0, 0, 0xFE, 0xFF, 0xFF, 0xFF, 0xFF, 0xFF, 0xFF, 0xFF]⟩]) := by decide
theorem test_unstep_ST_A : unstepColumn ⟨0x7, 0x0, 0x40002, 0xC00000000000⟩ = ⟨1, 2, 3, 4⟩ := by decide

/-! ### SAMPLE (sections 2.4, 2.5, program P1) -/

theorem test_rangeMap_rows :
    [rangeMap 0x0CCCCCCC 20, rangeMap 0x0CCCCCCD 20, rangeMap 0xFFFFFFFF 0xFFFFFFFF, rangeMap 0x12345678 0,
      rangeMap 0xDEADBEEF 32767, rangeMap 0xC0000000 2147483648] = [1, 2, 4294967295, 1, 28503, 1610612737] := by decide
/-- P1, row 4: the boundary call returns the stale word 0x88B9EB1C and refills. -/
theorem test_sample_boundary_P1 :
    (after (exec (.sample 20) (stateOf [⟨0x78695A4B3C2D1E0F, 0xF0E1D2C3B4A59687, 0x7B0D84F3A6D1A497, 0xDA7C0F2943E596B0⟩]
      [0x4D7EAFDF, 0x88B9EB1C] 1))).map (fun s => (s.block, s.responses)) =
      some ({ cols := [⟨0x52F487A1CB6D1E38, 0xF3850C7B2E592C1F, 0xA6E3B7F3B7F2BA98, 0x0006E553BBBD5EE8⟩]
              buf := [0x8012B4BF, 0x52E56974], cur := 0, seedProgress := none }, [okResponse 11]) := by decide
/-- P1, row 3: inside the buffer. -/
theorem test_sample_inside_P1 :
    (after (exec (.sample 20) (stateOf [⟨1, 2, 3, 4⟩] [0x4D7EAFDF, 0x88B9EB1C] 0))).map
      (fun s => (s.block.cur, s.block.buf, s.responses)) = some (1, [0x4D7EAFDF, 0x88B9EB1C], [okResponse 7]) := by decide

/-! ### SEED (sections 2.6, programs P2, P5) -/

/-- P2, row 1. -/
theorem test_seed_P2 :
    (after (exec .seed { State.reset with entropy := answers })).map (fun s => (s.block, s.responses)) =
      some ({ cols := [⟨0x1716151413121110, 0x1F1E1D1C1B1A1918, 0x0A08060402001010, 0x0202020202020202⟩]
              buf := [0x1E1C1A18, 0x26242220], cur := 0, seedProgress := none }, [okResponse 0]) := by decide
/-- P5, row 1, with a wait before the third answer: the hold shows the partial state, and the next step ends the SEED. -/
theorem test_seed_P5_short_answers_and_hold :
    (after (exec .seed { State.reset with entropy :=
      [some (List.replicate 8 0x11), some [], none, some (List.replicate 8 0x33), some [0x44, 0x44, 0x44]] })).map
      (fun s => (s.block.seedProgress, s.responses, (after (step s)).map fun t => (t.block, t.responses))) =
      some (some ⟨.s2, [⟨0x1111111111111111, 0, 0, 0⟩]⟩, [],
        some ({ cols := [⟨0x1111111111555555, 0x2222222222222222, 0x2222222222222222, 0x8888800000000008⟩]
                buf := [0x11555555, 0x11111111], cur := 0, seedProgress := none }, [okResponse 0])) := by decide
/-- SD-5. -/
theorem test_entropyLoad_keeps_bytes :
    entropyLoad .s0 [0xAA, 0xAA] [⟨0x1122334455667788, 0, 0, 0⟩] = [⟨0x112233445566AAAA, 0, 0, 0⟩] := by decide

/-! ### LOAD_STATE and READ_STATE (program P1 row 1, section 2.8) -/

theorem test_loadState_P1 :
    (after (exec (.loadState [0xEF, 0xCD, 0xAB, 0x89, 0x67, 0x45, 0x23, 0x01, 0x10, 0x32, 0x54, 0x76, 0x98, 0xBA, 0xDC, 0xFE,
      0x78, 0x69, 0x5A, 0x4B, 0x3C, 0x2D, 0x1E, 0x0F, 0xF0, 0xE1, 0xD2, 0xC3, 0xB4, 0xA5, 0x96, 0x87]) State.reset)).map
      (fun s => (s.block, s.responses)) =
      some ({ cols := [⟨0x0123456789ABCDEF, 0xFEDCBA9876543210, 0x0F1E2D3C4B5A6978, 0x8796A5B4C3D2E1F0⟩]
              buf := [0, 0], cur := 1, seedProgress := none }, [okResponse 0]) := by decide
theorem test_readState :
    (after (exec .readState small)).map (fun s => (s.block, s.responses)) =
      some (small.block, [⟨.ok, 0, [1, 0, 0, 0, 0, 0, 0, 0, 2, 0, 0, 0, 0, 0, 0, 0, 3, 0, 0, 0, 0, 0, 0, 0, 4, 0, 0, 0, 0, 0, 0, 0]⟩]) := by
  decide

/-! ### The step -/

theorem test_step_from_reset_runs_each_command :
    [1, 0x1400000002, 3, 4, 5, 0].map (fun w => (after (step (State.reset.withFetchWord 64 w))).map fun s =>
      (s.responses.map fun r => (r.status.code, r.result), s.block.seedProgress.isSome)) =
      [some ([], true), some ([(0, 1)], false), some ([(0, 0)], false), some ([(0, 0)], false), some ([(0, 0)], false),
        some ([(1, 0)], false)] := by decide
theorem test_wrong_payload_is_refused :
    refusalOf (step { State.reset with host := [⟨4, List.replicate 31 0⟩] }) = some .wrongPayloadLength := by decide
theorem test_reset_abandons_a_held_seed :
    (after (step { small with
      resetIn := [true]
      host := [⟨3, []⟩]
      block := { small.block with seedProgress := some ⟨.s1, small.block.cols⟩ } })).map
      (fun s => (s.block, s.host, s.responses)) = some (Block.resetOf 1, [⟨3, []⟩], []) := by decide
theorem test_cursor_outside_the_buffer_faults :
    faultOf (exec (.sample 20) (stateOf [⟨1, 2, 3, 4⟩] [0, 0] 2)) = some .noBufferWord := by decide

/-! ### Witnesses: for each statement with hypotheses, an input that meets them all -/

/-- A state with two lanes, CUR at `cur`, a command at the port. -/
def two (cur : Nat) (host : List Transaction) : State :=
  { stateOf [⟨1, 2, 3, 4⟩, ⟨5, 6, 7, 8⟩] [1, 2, 3, 4] cur with host := host }

theorem two_inv (cur : Nat) (h : cur < 4) (host : List Transaction) : (two cur host).Inv :=
  { lanes_pos := Nat.le_succ 1
    buf_length := rfl
    cur_lt := h
    progress := by intro p hp; cases hp }

def full : EntropyAnswer := List.replicate 16 0xA5

def seeded (cur : Nat) : State := { two cur [] with entropy := [some full, some full, some full, some full] }

theorem witness_ResetMeetsInvariant : (1 : Nat) ≤ 1 ∧ (1 : Nat) ≤ 4 := by decide
theorem witness_EveryStepKeepsBlockWellFormed : (two 3 [⟨2, []⟩]).Inv ∧ ∃ t, step (two 3 [⟨2, []⟩]) = .next t :=
  ⟨two_inv 3 (by decide) _, _, rfl⟩
theorem witness_StopsOnlyAtTheInterface_payload :
    (two 3 [⟨1, [0]⟩]).Inv ∧ step (two 3 [⟨1, [0]⟩]) = .refused .wrongPayloadLength := ⟨two_inv 3 (by decide) _, rfl⟩
theorem witness_StopsOnlyAtTheInterface_entropy :
    (two 3 [⟨1, []⟩]).block.Wf ∧
      step { two 3 [⟨1, []⟩] with entropy := [some (List.replicate 17 0)] } = .refused .entropyAnswerTooLong :=
  ⟨two_inv 3 (by decide) _, rfl⟩
theorem witness_LaneCountNeverChanges : ∃ t, step (two 3 [⟨2, []⟩]) = .next t := ⟨_, rfl⟩
theorem witness_BytesOfCommandDecodeToIt : (Instr.loadState (List.replicate 64 0xFF)).wf 2 = true ∧
    (Instr.sample 0xFFFFFFFF).wf 2 = true ∧ Instr.seed.wf 2 = true := by decide
theorem witness_DecodedTransactionIsItsEncoding : decode 2 ⟨0xFFFFFFFF00000002, []⟩ = .command (.sample 0xFFFFFFFF) := by decide
theorem witness_DecoderAgreesWithMatchAndMask :
    decodeWord 5 [] = some .readState ∧ decodeWord 6 [] = none ∧ decodeWord 0x8000000000000005 [] = none := by decide
theorem witness_DecodeFollowsTheFields_sample :
    (0xFFFFFFFF00000002 : U64).toNat = (0xFFFFFFFF : U32).toNat * 4294967296 + 2 ∧ (1 : U64).toNat = 1 ∧ (3 : U64).toNat = 3 ∧
      (4 : U64).toNat = 4 ∧ (5 : U64).toNat = 5 := by decide
theorem witness_VectorByteImage : full.length = 8 * 2 ∧ 1 < (vecFromBytes full).length ∧ 8 * 1 + 7 < full.length := by decide
theorem witness_PayloadLayout : 1 < (two 0 []).block.cols.length ∧ 7 < 8 := by decide
theorem witness_StepLanesAreIndependent :
    (two 3 []).block.cols[0]? = small.block.cols[0]? ∧ (∃ t, exec .step (two 3 []) = .next t) ∧ ∃ t, exec .step small = .next t :=
  ⟨by decide, ⟨_, rfl⟩, ⟨_, rfl⟩⟩
theorem witness_ZeroLanesAreExactlyTheStuckOnes :
    (stateOf [⟨0, 0, 0, 0⟩, ⟨5, 6, 7, 8⟩] [1, 2, 3, 4] 3).block.cur =
      (stateOf [⟨0, 0, 0, 0⟩, ⟨5, 6, 7, 8⟩] [1, 2, 3, 4] 3).block.fw - 1 ∧
    ∃ t, exec (.sample 1) (stateOf [⟨0, 0, 0, 0⟩, ⟨5, 6, 7, 8⟩] [1, 2, 3, 4] 3) = .next t ∧
      t.block.cols[0]? = some ⟨0, 0, 0, 0⟩ ∧ (∃ c', t.block.cols[1]? = some c' ∧ c' ≠ ⟨5, 6, 7, 8⟩) :=
  ⟨by decide, _, rfl, by decide, _, rfl, by decide⟩
theorem witness_RangeMapProperties : 1 ≤ (1 : U32).toNat ∧ 1 ≤ (0xFFFFFFFF : U32).toNat ∧ (0 : U32).toNat ≤ (0xFFFFFFFF : U32).toNat := by
  decide
theorem witness_RangeMapPreimageCount : 1 ≤ 3 ∧ 3 ≤ (3 : U32).toNat := by decide
theorem witness_SampleConsumesOneWord_boundary : (two 3 []).block.Wf ∧ (two 3 []).block.cur = 2 * (two 3 []).block.lanes - 1 :=
  ⟨two_inv 3 (by decide) [], rfl⟩
theorem witness_SampleConsumesOneWord_inside : (two 2 []).block.Wf ∧ (two 2 []).block.cur < 2 * (two 2 []).block.lanes - 1 :=
  ⟨two_inv 2 (by decide) [], by decide⟩
theorem witness_UnseededSampleReturnsOne :
    State.reset.block.cols = List.replicate 1 Column.zero ∧ State.reset.block.buf = List.replicate (2 * 1) 0 ∧
      State.reset.block.cur < 2 * 1 := by decide
theorem witness_OneStepPerBufferCycle : (two 2 []).block.Wf ∧ [20, 0, 1, 6].length = (two 2 []).block.fw :=
  ⟨two_inv 2 (by decide) [], rfl⟩
theorem witness_ConsumptionOrder : (two 3 []).block.Wf ∧ (two 3 []).block.cur = (two 3 []).block.fw - 1 ∧
    ([20, 0, 1, 6, 7, 8] : List U32)[5]? = some 8 := ⟨two_inv 3 (by decide) [], rfl, rfl⟩
theorem witness_StepBeforeRefillRemovesOneRound : (two 3 []).block.Wf ∧ (two 3 []).block.cur = (two 3 []).block.fw - 1 :=
  ⟨two_inv 3 (by decide) [], rfl⟩
theorem witness_EntropyLoadKeepsUndeliveredBytes : ([0xAA, 0xAA] : EntropyAnswer).length ≤ 8 * [Column.zero].length ∧
    VecId.s1 ≠ VecId.s0 := by decide
theorem witness_SeedCompletesOnFourAnswers :
    (seeded 1).block.Wf ∧ (seeded 1).block.seedProgress = none ∧
      (seeded 1).entropy = some full :: some full :: some full :: some full :: [] ∧ full.length ≤ 8 * (seeded 1).block.lanes :=
  ⟨two_inv 1 (by decide) [], rfl, rfl, by decide⟩
theorem witness_SeedEqualsLoadStateThenSample :
    (seeded 1).block.Wf ∧ (seeded 1).block.seedProgress = none ∧
      (seeded 1).entropy = some full :: some full :: some full :: some full :: [] ∧ full.length = 8 * (seeded 1).block.lanes :=
  ⟨two_inv 1 (by decide) [], rfl, rfl, by decide⟩
theorem witness_FirstSeedPrimesTheBuffer :
    (seeded 3).block.Wf ∧ (seeded 3).block.cur = (seeded 3).block.fw - 1 ∧
      (seeded 3).entropy = some full :: some full :: some full :: some full :: [] ∧ full.length = 8 * (seeded 3).block.lanes :=
  ⟨two_inv 3 (by decide) [], rfl, rfl, by decide⟩
theorem witness_ReseedLatency :
    (seeded 1).block.Wf ∧ (seeded 1).block.cur < (seeded 1).block.fw - 1 ∧
      (∃ t, exec .seed (seeded 1) = .next t ∧ t.block.seedProgress = none) ∧
      [20, 6].length = (seeded 1).block.fw - 1 - (seeded 1).block.cur :=
  ⟨two_inv 1 (by decide) [], by decide, ⟨_, rfl, by decide⟩, rfl⟩
theorem witness_SeedWithoutEntropyStaysZero : 1 ≤ 1 := by decide
/-- A SEED that waits for S2's answer. -/
def held : State := { two 1 [⟨3, []⟩] with block := { (two 1 []).block with seedProgress := some ⟨.s2, (two 1 []).block.cols⟩ } }

theorem witness_SeedHoldsOnASilentPort :
    held.entropy = [] ∧ held.resetIn = [] ∧ held.block.seedProgress = some { vec := .s2, loaded := held.block.cols } :=
  ⟨rfl, rfl, rfl⟩
theorem witness_WaitingChangesNothing :
    (two 1 []).resetIn = [] ∧ [full, full, full].length < 4 ∧
      ∃ t, exec .seed { two 1 [] with entropy := [full, full, full].map some ++ none :: [some full] } = .next t :=
  ⟨rfl, by decide, _, rfl⟩
theorem witness_HeldSeedTakesNoCommand :
    held.block.seedProgress ≠ none ∧ held.resetIn.headD false = false ∧ ∃ t, step held = .next t :=
  ⟨by decide, rfl, _, rfl⟩
theorem witness_HeldSeedTakesNoCommand_end :
    ∃ t, step { held with entropy := [some full, some []] } = .next t ∧ t.block.seedProgress = none := ⟨_, rfl, by decide⟩
theorem witness_LoadStateWritesThePayload :
    (List.replicate 64 (0 : Byte)).length = 32 * (two 0 []).block.lanes ∧
      (List.replicate 63 (0 : Byte)).length ≠ 32 * (two 0 []).block.lanes := by decide
theorem witness_ReadAfterLoadReturnsThePayload : (List.replicate 64 (0xFF : Byte)).length = 32 * (two 0 []).block.lanes := by
  decide
theorem witness_WritersOfEachRegister :
    ∃ t, exec (.sample 20) (two 3 []) = .next t ∧ t.block.buf ≠ (two 3 []).block.buf ∧ t.block.cur ≠ (two 3 []).block.cur ∧
      t.block.cols ≠ (two 3 []).block.cols := ⟨_, rfl, by decide, by decide, by decide⟩
theorem witness_WritersOfEachRegister_seed :
    ∃ t, exec .seed { two 3 [] with entropy := [none] } = .next t ∧ t.block.seedProgress ≠ (two 3 []).block.seedProgress ∧
      t.entropy ≠ [none] := ⟨_, rfl, by decide, by decide⟩
theorem witness_OneResponsePerCommand : (∃ t, exec .step (two 3 []) = .next t) ∧ ∃ t, exec .seed (two 3 []) = .next t :=
  ⟨⟨_, rfl⟩, ⟨_, rfl⟩⟩
theorem witness_BufferAndCursorAreHidden : Instr.readState ≠ .seed ∧ (∀ max, Instr.readState ≠ .sample max) ∧
    ∃ t, exec .readState (two 3 []) = .next t := ⟨by decide, fun _ h => (nomatch h), _, rfl⟩
theorem witness_IllegalCommandOnlyResponds :
    (two 3 [⟨6, [1]⟩]).resetIn.headD false = false ∧ (two 3 [⟨6, [1]⟩]).block.seedProgress = none ∧
      (two 3 [⟨6, [1]⟩]).host = ⟨6, [1]⟩ :: [] ∧ (6 : U64).extractLsb' 0 8 = 6 ∧ (0 : U64).extractLsb' 0 8 = 0 ∧
      (0x80000001 : U64).extractLsb' 8 24 ≠ 0 ∧ (0x100000005 : U64).extractLsb' 32 32 ≠ 0 ∧ (0x100000005 : U64).extractLsb' 0 8 ≠ 2 :=
  ⟨rfl, rfl, rfl, by decide, by decide, by decide, by decide, by decide⟩
theorem witness_StepRunsTheDecodedCommand :
    (two 3 [⟨5, []⟩]).resetIn.headD false = false ∧ (two 3 [⟨5, []⟩]).block.seedProgress = none ∧
      (two 3 [⟨5, []⟩]).host = ⟨5, []⟩ :: [] ∧ decode (two 3 [⟨5, []⟩]).block.lanes ⟨5, []⟩ = .command .readState :=
  ⟨rfl, rfl, rfl, by decide⟩
theorem witness_HostListIsWorkedOffInOrder :
    (two 3 [⟨5, []⟩, ⟨0, [1]⟩]).Inv ∧ (two 3 [⟨5, []⟩, ⟨0, [1]⟩]).block.seedProgress = none ∧
      (two 3 [⟨5, []⟩, ⟨0, [1]⟩]).resetIn = [] ∧
      (∀ t ∈ (two 3 [⟨5, []⟩, ⟨0, [1]⟩]).host, decode 2 t ≠ .wrongPayloadLength ∧ decode 2 t ≠ .command .seed) ∧
      decodeWord 5 [] = some .readState ∧ decodeWord 0 [1] = none :=
  ⟨two_inv 3 (by decide) _, rfl, rfl, by decide, by decide, by decide⟩
theorem witness_WrongPayloadLengthIsRefused :
    decodeWord 5 [0] = some .readState ∧ ([0] : List Byte).length ≠ Instr.readState.payloadSize 2 ∧
      (two 3 [⟨5, [0]⟩]).host = ⟨5, [0]⟩ :: [] := ⟨by decide, by decide, rfl⟩
theorem witness_NothingHappensBetweenCommands :
    (two 3 []).resetIn.headD false = false ∧ (two 3 []).block.seedProgress = none ∧ (two 3 []).host = [] := ⟨rfl, rfl, rfl⟩
theorem witness_ResetTakesPriority : ({ held with resetIn := [true, false] } : State).resetIn = true :: [false] := rfl

end Sys2Proof.Tests
end

section
/-! PROOF. What each command, the command port, a cycle and a step can do when they answer a next state, said once, so
that an invariant's proof splits a step into its cases without unfolding it. -/

namespace Sys2Proof.Machine

/-! ### The commands -/

theorem exec_seed (s : State) : exec .seed s = seedRun vecOrder s := rfl

theorem exec_step (s : State) :
    exec .step s = .next ((s.withBlock { s.block with cols := stepCols s.block.cols }).respond .ok 0
      (bytesFromWords (stepWords s.block.cols))) := rfl

theorem exec_readState (s : State) : exec .readState s = .next (s.respond .ok 0 (bytesFromState s.block.cols)) := rfl

/-- SAMPLE completes exactly where its SampleCore call does (R95). -/
theorem exec_sample_next {max : U32} {s t : State} (h : exec (.sample max) s = .next t) :
    ∃ r b, s.block.sampleCore max = some (r, b) ∧ t = (s.withBlock b).respond .ok r [] := by
  simp only [exec, execSample] at h
  split at h
  · cases h
  · next r b hs => cases h; exact ⟨r, b, hs, rfl⟩

/-- LOAD_STATE completes with a payload of 32W bytes only (R65, R105). -/
theorem exec_loadState_next {p : List Byte} {s t : State} (h : exec (.loadState p) s = .next t) :
    p.length = 32 * s.block.lanes ∧
      t = (s.withBlock { s.block with cols := loadVectors p s.block.cols }).respond .ok 0 [] := by
  simp only [exec, execLoadState] at h
  split at h
  · next hp => cases h; exact ⟨hp, rfl⟩
  · cases h

/-! ### The command port, the cycle, the step -/

/-- A transaction that does not stop the machine is a command, or an illegal word (R65, R121). -/
theorem issue_next {x : Transaction} {s t : State} (h : issue x s = .next t) :
    (∃ i, decode s.block.lanes x = .command i ∧ exec i s = .next t) ∨
      (∃ cmd, decode s.block.lanes x = .illegalCommand cmd ∧ t = s.raiseIllegal) := by
  simp only [issue] at h
  split at h
  · next i hd => exact .inl ⟨i, hd, h⟩
  · next cmd hd => cases h; exact .inr ⟨cmd, hd, rfl⟩
  · cases h

/-- Without reset, an outstanding SEED goes on, or nothing happens, or the host's next transaction is taken (R52, R130). -/
theorem cycle_next {s t : State} (h : cycle s = .next t) :
    (∃ p, s.block.seedProgress = some p ∧ seedRun p.vec.remaining s = .next t) ∨
      (s.block.seedProgress = none ∧ s.host = [] ∧ t = s) ∨
      (s.block.seedProgress = none ∧ ∃ x rest, s.host = x :: rest ∧ issue x { s with host := rest } = .next t) := by
  simp only [cycle] at h
  split at h
  · next p hp => exact .inl ⟨p, hp, h⟩
  · next hn =>
    split at h
    · next hh => cases h; exact .inr (.inl ⟨hn, hh, rfl⟩)
    · next x rest hh => exact .inr (.inr ⟨hn, x, rest, hh, h⟩)

/-- A step is a reset or, where reset is not asserted, a cycle (R123). -/
theorem step_next {s t : State} (h : step s = .next t) :
    (s.resetAsserted = true ∧ t = s.popReset.takeReset) ∨
      (s.resetAsserted = false ∧ cycle s.popReset = .next t) := by
  simp only [step] at h
  split at h
  · next hr => cases h; exact .inl ⟨hr, rfl⟩
  · next hr => exact .inr ⟨Bool.eq_false_iff.mpr hr, h⟩

end Sys2Proof.Machine
end

section
/-! PROOF. The lane count (R8, R20, R36) and the reset state (R35, R140). -/

namespace Sys2Proof.Machine

/-! ### LOAD_STATE keeps the lane count -/

theorem length_payloadPart {W : Nat} {p : List Byte} (v : VecId) (h : p.length = 32 * W) :
    (payloadPart W v p).length = 8 * W := by
  cases v <;> simp [payloadPart, VecId.index] <;> omega

theorem length_loadVectors {p : List Byte} {cols : List Column} (h : p.length = 32 * cols.length) :
    (loadVectors p cols).length = cols.length := by
  refine List.foldlRecOn (motive := fun cs : List Column => cs.length = cols.length) vecOrder _ rfl ?_
  intro cs hcs v _
  simp [hcs, length_vecFromBytes (length_payloadPart v h)]

/-! ### What runs in a step keeps the lane count -/

theorem exec_lanes {i : Instr} {s t : State} (h : exec i s = .next t) : t.block.lanes = s.block.lanes := by
  cases i with
  | seed => exact (seedRun_next (exec_seed s ▸ h)).lanes
  | sample max =>
    obtain ⟨r, b, hs, rfl⟩ := exec_sample_next h
    exact (sampleCore_keeps hs).1
  | step =>
    rw [exec_step] at h
    cases h
    exact length_stepCols s.block.cols
  | loadState p =>
    obtain ⟨hp, rfl⟩ := exec_loadState_next h
    exact length_loadVectors hp
  | readState =>
    rw [exec_readState] at h
    cases h
    rfl

theorem issue_lanes {x : Transaction} {s t : State} (h : issue x s = .next t) : t.block.lanes = s.block.lanes := by
  obtain ⟨i, _, hi⟩ | ⟨cmd, _, rfl⟩ := issue_next h
  · exact exec_lanes hi
  · rfl

theorem cycle_lanes {s t : State} (h : cycle s = .next t) : t.block.lanes = s.block.lanes := by
  obtain ⟨p, _, hr⟩ | ⟨_, _, rfl⟩ | ⟨_, x, rest, _, hx⟩ := cycle_next h
  · exact (seedRun_next hr).lanes
  · rfl
  · exact (issue_lanes hx).trans rfl

/-- Settles O5: a reset rebuilds the block for the lane count it has, and whatever else runs in a step keeps it. -/
theorem laneCountNeverChanges : Obligations.LaneCountNeverChanges := by
  intro s t h
  obtain ⟨_, rfl⟩ | ⟨_, hc⟩ := step_next h
  · exact resetOf_lanes s.block.lanes
  · simpa using cycle_lanes hc

/-! ### The reset state -/

theorem resetOf_wf {W : Nat} (hW : 1 ≤ W) : (Block.resetOf W).Wf where
  lanes_pos := by simpa using hW
  buf_length := by simp [Block.resetOf, Block.fw, Block.lanes]
  cur_lt := by simp [Block.resetOf, Block.fw, Block.lanes]; omega
  progress := by simp

/-- Settles O2: `State.reset` is the case of `Config.lanes`, which is 1. -/
theorem resetMeetsInvariant : Obligations.ResetMeetsInvariant :=
  ⟨fun _ hW => resetOf_wf hW, resetOf_wf (Nat.le_refl 1)⟩

end Sys2Proof.Machine
end

section
/-! PROOF. Every step keeps the block in `BlockState(W)` (R26, R31, R32, R35). -/

namespace Sys2Proof.Machine

/-- A block that differs from one of `BlockState(W)` only in the words it holds, not in how many, is one too, as long as
a SEED in progress holds S as it is. -/
theorem Block.Wf.of_same_shape {b b' : Block} (hb : b.Wf) (hl : b'.lanes = b.lanes)
    (hbuf : b'.buf.length = b.buf.length) (hcur : b'.cur = b.cur)
    (hp : ∀ p, b'.seedProgress = some p → p.loaded = b'.cols) : b'.Wf where
  lanes_pos := hl ▸ hb.lanes_pos
  buf_length := by rw [hbuf, hb.buf_length, Block.fw, Block.fw, hl]
  cur_lt := by rw [hcur, Block.fw, hl]; exact hb.cur_lt
  progress := hp

/-- Where no SEED is outstanding there is no snapshot of S to keep up to date. -/
theorem progress_of_idle {b : Block} (hn : b.seedProgress = none) : ∀ p, b.seedProgress = some p → p.loaded = b.cols := by
  simp [hn]

theorem sampleCore_wf {b b' : Block} {max r : U32} (hb : b.Wf) (hn : b.seedProgress = none)
    (h : b.sampleCore max = some (r, b')) : b'.Wf := by
  obtain ⟨hl, hp⟩ := sampleCore_keeps h
  obtain ⟨hbuf, hcur⟩ := sampleCore_sizes h hb.lanes_pos hb.buf_length hb.cur_lt
  exact ⟨hl ▸ hb.lanes_pos, hbuf, hcur, progress_of_idle (hp.trans hn)⟩

/-- SEED's sequence, new or resumed: where it holds, the snapshot is S; where it ends, no snapshot is left. -/
theorem seedRun_wf {vs : List VecId} {s t : State} (hs : s.block.Wf) (h : seedRun vs s = .next t) : t.block.Wf := by
  have hout := seedRun_next h
  obtain ⟨v, _, hp, hbuf, hcur, _⟩ | ⟨cols, r, hc, hsample, _⟩ := hout.ends
  · exact hs.of_same_shape hout.lanes (congrArg _ hbuf) hcur (by simp [hp])
  · exact sampleCore_wf (hs.of_same_shape (b' := { s.block with cols := cols, seedProgress := none }) hc rfl rfl
      (progress_of_idle rfl)) rfl hsample

/-- A command starts only where no SEED is outstanding (R130). -/
theorem exec_wf {i : Instr} {s t : State} (hs : s.block.Wf) (hn : s.block.seedProgress = none)
    (h : exec i s = .next t) : t.block.Wf := by
  have hl : t.block.lanes = s.block.lanes := exec_lanes h
  cases i with
  | seed => exact seedRun_wf hs h
  | sample max =>
    obtain ⟨r, b, hb, rfl⟩ := exec_sample_next h
    exact sampleCore_wf hs hn hb
  | step =>
    rw [exec_step] at h
    cases h
    exact hs.of_same_shape hl rfl rfl (progress_of_idle hn)
  | loadState p =>
    obtain ⟨_, rfl⟩ := exec_loadState_next h
    exact hs.of_same_shape hl rfl rfl (progress_of_idle hn)
  | readState =>
    rw [exec_readState] at h
    cases h
    exact hs

theorem issue_wf {x : Transaction} {s t : State} (hs : s.block.Wf) (hn : s.block.seedProgress = none)
    (h : issue x s = .next t) : t.block.Wf := by
  obtain ⟨i, _, hi⟩ | ⟨cmd, _, rfl⟩ := issue_next h
  · exact exec_wf hs hn hi
  · exact hs

theorem cycle_wf {s t : State} (hs : s.block.Wf) (h : cycle s = .next t) : t.block.Wf := by
  obtain ⟨p, _, hr⟩ | ⟨_, _, rfl⟩ | ⟨hn, x, rest, _, hx⟩ := cycle_next h
  · exact seedRun_wf hs hr
  · exact hs
  · exact issue_wf (s := { s with host := rest }) hs hn hx

/-- Settles O3: a reset rebuilds the block as the reset table says, and whatever else runs in a step keeps the invariant. -/
theorem everyStepKeepsBlockWellFormed : Obligations.EveryStepKeepsBlockWellFormed := by
  intro s t hs h
  obtain ⟨_, rfl⟩ | ⟨_, hc⟩ := step_next h
  · exact resetOf_wf hs.lanes_pos
  · exact cycle_wf (s := s.popReset) hs hc

end Sys2Proof.Machine
end

section
/-! PROOF. One lane's round: its four lines, its inverse (R24), and the zero lane-column (R25, R83). -/

namespace Sys2Proof.Machine

/-! ### What a round writes, from the old values (R80) -/

@[simp] theorem stepColumn_s0 (c : Column) : (stepColumn c).2.s0 = c.s0 ^^^ (c.s3 ^^^ c.s1) := rfl
@[simp] theorem stepColumn_s1 (c : Column) : (stepColumn c).2.s1 = c.s1 ^^^ (c.s2 ^^^ c.s0) := rfl
@[simp] theorem stepColumn_s2 (c : Column) : (stepColumn c).2.s2 = c.s2 ^^^ c.s0 ^^^ c.s1 <<< 17 := rfl
@[simp] theorem stepColumn_s3 (c : Column) : (stepColumn c).2.s3 = rotl64 (c.s3 ^^^ c.s1) 45 := rfl

/-! ### The inverse of a round -/

/-- Bit i comes back from place (i + 45) mod 64: below 19 it stayed in the word, from 19 on it was wrapped round. -/
@[simp] theorem rotr64_rotl64 (x : U64) : rotr64 (rotl64 x 45) 45 = x := by
  ext i hi
  have hout : x.getLsbD (19 + (45 + i)) = false := BitVec.getLsbD_of_ge x _ (by omega)
  by_cases hw : i < 19
  · simp [rotr64, rotl64, hw, hout, show 45 + i < 64 by omega]
  · have hback : 19 + (i - 19) = i := by omega
    simp [rotr64, rotl64, hw, hout, hback, show i - 19 < 45 by omega, show ¬ 45 + i < 64 by omega,
      BitVec.getLsbD_eq_getElem hi]

/-- Folding in the shifts by 17, 34 and 51 leaves `y` and its shift by 68, which is out of the word. -/
theorem undo_xor_shift (y : U64) :
    (y ^^^ y <<< 17) ^^^ (y ^^^ y <<< 17) <<< 17 ^^^ (y ^^^ y <<< 17) <<< 34 ^^^ (y ^^^ y <<< 17) <<< 51 = y := by
  have hout : y <<< 68 = 0 := BitVec.shiftLeft_eq_zero (by decide)
  simp [BitVec.shiftLeft_xor_distrib, ← BitVec.shiftLeft_add, hout, BitVec.xor_assoc]

theorem xor_cancel_middle {w : Nat} (a m b : BitVec w) : a ^^^ m ^^^ (m ^^^ b) = a ^^^ b := by
  simp [BitVec.xor_assoc]

theorem stepColumn_s1_xor_s2 (c : Column) :
    (stepColumn c).2.s1 ^^^ (stepColumn c).2.s2 = c.s1 ^^^ c.s1 <<< 17 :=
  xor_cancel_middle c.s1 (c.s2 ^^^ c.s0) _

theorem unstepColumn_stepColumn (c : Column) : unstepColumn (stepColumn c).2 = c := by
  simp only [unstepColumn, stepColumn_s1_xor_s2, undo_xor_shift]
  simp

/-- Settles O16: the three equations of R24, and the inverse they make. -/
theorem stepIsInvertible : Obligations.StepIsInvertible := by
  intro c
  exact ⟨(stepColumn_s1_xor_s2 c).symm, by simp, by simp, unstepColumn_stepColumn c⟩

/-! ### The zero lane-column -/

theorem stepColumn_zero : (stepColumn Column.zero).2 = Column.zero := by decide

/-- A round is injective, so no other lane-column than zero becomes zero. -/
theorem stepColumn_eq_zero_iff (c : Column) : (stepColumn c).2 = Column.zero ↔ c = Column.zero := by
  constructor
  · intro h
    rw [← unstepColumn_stepColumn c, h]
    decide
  · rintro rfl
    exact stepColumn_zero

/-- Where a round changes nothing, its lines for s0 and s1 say that s3 = s1 and s2 = s0; then s3 is a rotated zero, and
s0 is a shifted zero by the line for s2. -/
theorem stepColumn_eq_self_iff (c : Column) : (stepColumn c).2 = c ↔ c = Column.zero := by
  constructor
  · intro h
    obtain ⟨s0, s1, s2, s3⟩ := c
    have hs3 : s3 = s1 := by simpa using congrArg Column.s0 h
    have hs2 : s2 = s0 := by simpa using congrArg Column.s1 h
    have hs1 : s1 = 0 := Eq.symm (by simpa [hs3, rotl64] using congrArg Column.s3 h)
    have hs0 : s0 = 0 := Eq.symm (by simpa [hs2, hs1] using congrArg Column.s2 h)
    rw [hs3, hs2, hs1, hs0]
    rfl
  · rintro rfl
    exact stepColumn_zero

/-! ### The commands that run rounds -/

theorem getElem?_stepCols (cols : List Column) (k : Nat) :
    (stepCols cols)[k]? = cols[k]?.map fun c => (stepColumn c).2 := List.getElem?_map

/-- STEP runs a round on the vectors, and SAMPLE does in a refill; otherwise SAMPLE leaves them (R85, R91). -/
theorem exec_cols_of_round {i : Instr} {s t : State} (hi : i = .step ∨ ∃ max, i = .sample max)
    (h : exec i s = .next t) :
    ((i = .step ∨ s.block.cur = s.block.fw - 1) ∧ t.block.cols = stepCols s.block.cols) ∨
      (¬ (i = .step ∨ s.block.cur = s.block.fw - 1) ∧ t.block.cols = s.block.cols) := by
  obtain rfl | ⟨max, rfl⟩ := hi
  · rw [exec_step] at h
    cases h
    exact .inl ⟨.inl rfl, rfl⟩
  · obtain ⟨r, b, hb, rfl⟩ := exec_sample_next h
    obtain ⟨_, _, _, ⟨hc, rfl⟩ | ⟨hc, rfl⟩⟩ := sampleCore_cases hb
    · exact .inl ⟨.inr hc, rfl⟩
    · exact .inr ⟨by simp [hc], rfl⟩

/-- Settles O19: lane k either runs one round, or stays as it is away from the refill boundary. -/
theorem zeroLanesAreExactlyTheStuckOnes : Obligations.ZeroLanesAreExactlyTheStuckOnes := by
  intro i s t k c c' hi h hc hc'
  obtain ⟨_, hcols⟩ | ⟨hn, hcols⟩ := exec_cols_of_round hi h
  · have hround : (stepColumn c).2 = c' := by simpa [hcols, getElem?_stepCols, hc] using hc'
    subst hround
    exact ⟨stepColumn_eq_zero_iff c, fun _ => stepColumn_eq_self_iff c⟩
  · have hsame : c = c' := by simpa [hcols, hc] using hc'
    subst hsame
    exact ⟨Iff.rfl, fun hr => absurd hr hn⟩

end Sys2Proof.Machine
end

section
/-! PROOF. A lane's round and its bytes of STEP's response depend on that lane only (R21, R44, R46, R83). -/

namespace Sys2Proof

theorem extractLsb'_extractLsb' {w : Nat} (x : BitVec w) (a m b n : Nat) (h : b + n ≤ m) :
    (x.extractLsb' a m).extractLsb' b n = x.extractLsb' (a + b) n := by
  ext i hi
  simp [show b + i < m by omega, Nat.add_assoc]

namespace Machine

/-! ### The bytes of the words of a lane are the bytes of the lane (R47) -/

/-- A lane's bytes are those of its low half, then those of its high half (R43). -/
theorem leBytes_halves (r : U64) : (halves r).flatMap (leBytes 4) = leBytes 8 r := by
  simp [halves, leBytes, List.range_succ, extractLsb'_extractLsb']

theorem bytesFromWords_split (rs : List U64) : bytesFromWords (split rs) = bytesFromVec rs := by
  simp only [bytesFromWords, split, List.flatMap_assoc, leBytes_halves]
  rfl

/-- Byte b of a vector's image is byte b mod 8 of lane b div 8 (R44). -/
theorem getElem?_bytesFromVec (V : List U64) (b : Nat) :
    (bytesFromVec V)[b]? = V[b / 8]?.map fun lane => lane.extractLsb' (8 * (b % 8)) 8 := by
  induction V generalizing b with
  | nil => rfl
  | cons x V ih =>
    rw [bytesFromVec_cons]
    by_cases hb : b < 8
    · rw [List.getElem?_append_left (by simpa using hb), getElem?_leBytes x hb]
      simp [Nat.div_eq_of_lt hb, Nat.mod_eq_of_lt hb]
    · obtain ⟨b, rfl⟩ := Nat.exists_eq_add_of_le' (Nat.le_of_not_lt hb)
      rw [List.getElem?_append_right (by simp), ih]
      simp

/-- Byte b of the word image of a round is byte b mod 8 of the sum of lane b div 8 (R81, R85). -/
theorem getElem?_bytesFromWords_stepWords (cols : List Column) (b : Nat) :
    (bytesFromWords (stepWords cols))[b]? =
      cols[b / 8]?.map fun c => (stepColumn c).1.extractLsb' (8 * (b % 8)) 8 := by
  rw [stepWords, bytesFromWords_split, getElem?_bytesFromVec, List.getElem?_map, Option.map_map]
  rfl

/-- Settles O18: lane k of the vectors, and bytes 8k to 8k+7 of the response, are functions of the old lane k. -/
theorem stepLanesAreIndependent : Obligations.StepLanesAreIndependent := by
  intro s s' t t' k hk h h'
  rw [exec_step] at h h'
  cases h
  cases h'
  refine ⟨?_, _, _, rfl, rfl, fun b hb => ?_⟩
  · show (stepCols s.block.cols)[k]? = (stepCols s'.block.cols)[k]?
    rw [getElem?_stepCols, getElem?_stepCols, hk]
  · have hlane : (8 * k + b) / 8 = k := by omega
    simp only [getElem?_bytesFromWords_stepWords, hlane, hk]

end Machine
end Sys2Proof
end

section
/-! PROOF. The reset table (R140), which command writes which register (R22, R27, R32), and what the commands other than
SAMPLE and SEED do not read (R28, R37). -/

namespace Sys2Proof.Machine

/-! ### Reset -/

/-- Settles O1: the table gives every field; every component of the zero lane-column is 0. -/
theorem resetBlockValues : Obligations.ResetBlockValues := by
  intro W
  refine ⟨fun v => ?_, rfl, rfl, rfl⟩
  have hzero : Column.zero.get v = 0 := by cases v <;> rfl
  show (List.replicate W Column.zero).map (Column.get v) = List.replicate W 0
  rw [List.map_replicate, hzero]

/-! ### Writers -/

/-- SampleCore writes the vectors and the buffer in a refill only (R91). -/
theorem sampleCore_unchanged_off_boundary {b b' : Block} {max r : U32} (h : b.sampleCore max = some (r, b'))
    (hc : b.cur ≠ b.fw - 1) : b'.cols = b.cols ∧ b'.buf = b.buf := by
  obtain ⟨_, _, _, ⟨hc', _⟩ | ⟨_, rfl⟩⟩ := sampleCore_cases h
  · exact absurd hc' hc
  · exact ⟨rfl, rfl⟩

/-- SEED writes the buffer by its warm-up only, and that in a refill only (R102). -/
theorem seedRun_buf_off_boundary {vs : List VecId} {s t : State} (h : seedRun vs s = .next t)
    (hc : s.block.cur ≠ s.block.fw - 1) : t.block.buf = s.block.buf := by
  obtain ⟨_, _, _, hbuf, _, _⟩ | ⟨cols, r, hl, hsample, _⟩ := (seedRun_next h).ends
  · exact hbuf
  · have hfw : Block.fw { s.block with cols := cols, seedProgress := none } = s.block.fw := congrArg (2 * ·) hl
    exact (sampleCore_unchanged_off_boundary hsample (hfw ▸ hc)).2

/-- Settles O39, by the command. -/
theorem writersOfEachRegister : Obligations.WritersOfEachRegister := by
  intro i s t h
  cases i with
  | seed =>
    rw [exec_seed] at h
    have hout := seedRun_next h
    have hbuf : t.block.buf ≠ s.block.buf → s.block.cur = s.block.fw - 1 :=
      not_imp_comm.mp (seedRun_buf_off_boundary h)
    simpa [hout.host, hout.resetIn] using hbuf
  | sample max =>
    obtain ⟨r, b, hb, rfl⟩ := exec_sample_next h
    have hoff := sampleCore_unchanged_off_boundary hb
    have hbuf : b.buf ≠ s.block.buf → s.block.cur = s.block.fw - 1 := not_imp_comm.mp fun hc => (hoff hc).2
    have hcols : b.cols ≠ s.block.cols → s.block.cur = s.block.fw - 1 := not_imp_comm.mp fun hc => (hoff hc).1
    simpa [(sampleCore_keeps hb).2] using And.intro hbuf hcols
  | step =>
    rw [exec_step] at h
    cases h
    simp
  | loadState p =>
    obtain ⟨_, rfl⟩ := exec_loadState_next h
    simp
  | readState =>
    rw [exec_readState] at h
    cases h
    simp

/-! ### BUF and CUR are hidden from the other commands -/

/-- Settles O41: STEP, LOAD_STATE and READ_STATE read the vectors, and write nothing of the block but them. -/
theorem bufferAndCursorAreHidden : Obligations.BufferAndCursorAreHidden := by
  intro i s t buf cur hseed hsample h
  cases i with
  | seed => exact absurd rfl hseed
  | sample max => exact absurd rfl (hsample max)
  | step =>
    rw [exec_step] at h
    cases h
    exact ⟨rfl, rfl, rfl⟩
  | loadState p =>
    obtain ⟨hp, rfl⟩ := exec_loadState_next h
    exact ⟨rfl, rfl, if_pos hp⟩
  | readState =>
    rw [exec_readState] at h
    cases h
    exact ⟨rfl, rfl, rfl⟩

end Sys2Proof.Machine
end

section
/-! PROOF. The byte image of a vector (R44), the four-vector payload (R45), and the agreement of the word view and the
byte view (R47); then LOAD_STATE and READ_STATE, which move that payload (R105, R107). -/

namespace Sys2Proof

/-- A lane is the sum of its bytes, each times the weight of its place. -/
theorem toNat_eq_sum_bytes (x : U64) :
    x.toNat = (x.extractLsb' 0 8).toNat + (x.extractLsb' 8 8).toNat * 2 ^ 8 + (x.extractLsb' 16 8).toNat * 2 ^ 16 +
      (x.extractLsb' 24 8).toNat * 2 ^ 24 + (x.extractLsb' 32 8).toNat * 2 ^ 32 +
      (x.extractLsb' 40 8).toNat * 2 ^ 40 + (x.extractLsb' 48 8).toNat * 2 ^ 48 +
      (x.extractLsb' 56 8).toNat * 2 ^ 56 := by
  have hx : x.toNat < 2 ^ 64 := x.isLt
  simp only [BitVec.extractLsb'_toNat, Nat.shiftRight_eq_div_pow]
  omega

namespace Machine

/-! ### The image of one vector -/

/-- Reading lanes from bytes is the inverse of the image, so byte m of lane k is the byte at 8k+m. -/
theorem getElem_eq_byte_of_vecFromBytes {W : Nat} {B : List Byte} (h : B.length = 8 * W) {k m : Nat} (hm : m < 8)
    (hk : k < (vecFromBytes B).length) (hb : 8 * k + m < B.length) :
    B[8 * k + m] = (vecFromBytes B)[k].extractLsb' (8 * m) 8 := by
  have himage : (bytesFromVec (vecFromBytes B))[8 * k + m]? = B[8 * k + m]? := by rw [bytesFromVec_vecFromBytes h]
  have hlane : (8 * k + m) / 8 = k := by omega
  have hplace : (8 * k + m) % 8 = m := by omega
  rw [getElem?_bytesFromVec, hlane, hplace, List.getElem?_eq_getElem hk, List.getElem?_eq_getElem hb] at himage
  exact (Option.some.inj himage).symm

/-- Settles O11: the second direction is the first one read backwards. -/
theorem vectorByteImage : Obligations.VectorByteImage := by
  refine ⟨getElem?_bytesFromVec, fun W B h => ⟨length_vecFromBytes h, fun k hk hB => ?_⟩⟩
  have hbyte {m : Nat} (hm : m < 8) : B[8 * k + m] = (vecFromBytes B)[k].extractLsb' (8 * m) 8 :=
    getElem_eq_byte_of_vecFromBytes h hm hk (by omega)
  rw [toNat_eq_sum_bytes, ← hbyte (m := 0) (by omega), ← hbyte (m := 1) (by omega), ← hbyte (m := 2) (by omega),
    ← hbyte (m := 3) (by omega), ← hbyte (m := 4) (by omega), ← hbyte (m := 5) (by omega),
    ← hbyte (m := 6) (by omega), ← hbyte (m := 7) (by omega)]
  rfl

/-! ### The image of the four vectors -/

theorem bytesFromState_eq (cols : List Column) :
    bytesFromState cols = bytesFromVec (vecOf .s0 cols) ++ bytesFromVec (vecOf .s1 cols) ++
      bytesFromVec (vecOf .s2 cols) ++ bytesFromVec (vecOf .s3 cols) := by
  simp [bytesFromState, vecOrder]

@[simp] theorem length_bytesFromState (cols : List Column) : (bytesFromState cols).length = 32 * cols.length := by
  simp [bytesFromState_eq]
  omega

/-- The vectors before `v` in the transfer order, and those a SEED that waits for `v` has still to load (R45, R57). -/
theorem vecOrder_split (v : VecId) :
    ∃ us ws, vecOrder = us ++ v :: ws ∧ us.length = v.index ∧ v.remaining = v :: ws := by
  cases v with
  | s0 => exact ⟨[], [.s1, .s2, .s3], rfl, rfl, rfl⟩
  | s1 => exact ⟨[.s0], [.s2, .s3], rfl, rfl, rfl⟩
  | s2 => exact ⟨[.s0, .s1], [.s3], rfl, rfl, rfl⟩
  | s3 => exact ⟨[.s0, .s1, .s2], [], rfl, rfl, rfl⟩

/-- The images stand one after the other, each 8W bytes long. -/
theorem bytesFromState_split (cols : List Column) (v : VecId) :
    ∃ pre post, bytesFromState cols = pre ++ (bytesFromVec (vecOf v cols) ++ post) ∧
      pre.length = 8 * cols.length * v.index := by
  obtain ⟨us, ws, horder, hus, _⟩ := vecOrder_split v
  refine ⟨us.flatMap fun w => bytesFromVec (vecOf w cols), ws.flatMap fun w => bytesFromVec (vecOf w cols), ?_, ?_⟩
  · rw [bytesFromState, horder, List.flatMap_append, List.flatMap_cons]
  · simp [List.length_flatMap, hus, Nat.mul_comm]

/-- Byte j of the image of vector v is byte 8Wv + j of the payload. -/
theorem getElem?_bytesFromState (cols : List Column) (v : VecId) {j : Nat} (hj : j < 8 * cols.length) :
    (bytesFromState cols)[8 * cols.length * v.index + j]? = (bytesFromVec (vecOf v cols))[j]? := by
  obtain ⟨pre, post, hsplit, hpre⟩ := bytesFromState_split cols v
  rw [hsplit, ← hpre, List.getElem?_append_right (Nat.le_add_right _ _), Nat.add_sub_cancel_left,
    List.getElem?_append_left (by simpa using hj)]

/-- Settles O12: the place in the payload, then the place in the vector's image. -/
theorem payloadLayout : Obligations.PayloadLayout := by
  refine fun cols => ⟨length_bytesFromState cols, fun v k m hk hm => ?_⟩
  have hlane : (8 * k + m) / 8 = k := by omega
  have hplace : (8 * k + m) % 8 = m := by omega
  rw [Nat.add_assoc, getElem?_bytesFromState cols v (by omega), getElem?_bytesFromVec, hlane, hplace]

/-- Settles O14: the bytes of a lane are those of its low half, then those of its high half. -/
theorem mixedWidthViewsAgree : Obligations.MixedWidthViewsAgree := bytesFromWords_split

/-! ### LOAD_STATE and READ_STATE -/

/-- The part for S_v carries on where the parts before it end. -/
theorem take_append_payloadPart (W : Nat) (v : VecId) (p : List Byte) :
    p.take (8 * W * v.index) ++ payloadPart W v p = p.take (8 * W * (v.index + 1)) := by
  rw [Nat.mul_succ, List.take_add]
  rfl

/-- The parts for S0, S1, S2, S3 are the whole payload. -/
theorem payloadParts_append {W : Nat} {p : List Byte} (h : p.length = 32 * W) :
    payloadPart W .s0 p ++ payloadPart W .s1 p ++ payloadPart W .s2 p ++ payloadPart W .s3 p = p := by
  have h0 : payloadPart W .s0 p = p.take (8 * W * 1) := take_append_payloadPart W .s0 p
  have h1 : p.take (8 * W * 1) ++ payloadPart W .s1 p = p.take (8 * W * 2) := take_append_payloadPart W .s1 p
  have h2 : p.take (8 * W * 2) ++ payloadPart W .s2 p = p.take (8 * W * 3) := take_append_payloadPart W .s2 p
  have h3 : p.take (8 * W * 3) ++ payloadPart W .s3 p = p.take (8 * W * 4) := take_append_payloadPart W .s3 p
  rw [h0, h1, h2, h3, List.take_of_length_le (by omega)]

/-- Each vector is written once, and by its own part of the payload. -/
theorem vecOf_loadVectors {p : List Byte} {cols : List Column} (h : p.length = 32 * cols.length) (v : VecId) :
    vecOf v (loadVectors p cols) = vecFromBytes (payloadPart cols.length v p) := by
  have hpart (w : VecId) : (vecFromBytes (payloadPart cols.length w p)).length = cols.length :=
    length_vecFromBytes (length_payloadPart w h)
  cases v <;> simp [loadVectors, vecOrder, hpart, vecOf_setVec_same, vecOf_setVec_other]

theorem bytesFromVec_loadVectors {p : List Byte} {cols : List Column} (h : p.length = 32 * cols.length) (v : VecId) :
    bytesFromVec (vecOf v (loadVectors p cols)) = payloadPart cols.length v p := by
  rw [vecOf_loadVectors h, bytesFromVec_vecFromBytes (length_payloadPart v h)]

theorem exec_loadState {p : List Byte} {s : State} (h : p.length = 32 * s.block.lanes) :
    exec (.loadState p) s =
      .next ((s.withBlock { s.block with cols := loadVectors p s.block.cols }).respond .ok 0 []) := if_pos h

/-- Settles O36: the images after the load are the parts of the payload, which put together are the payload. -/
theorem loadStateWritesThePayload : Obligations.LoadStateWritesThePayload := by
  refine fun s p => ⟨fun hp => ?_, fun hp => if_neg hp⟩
  refine ⟨loadVectors p s.block.cols, length_loadVectors hp, ?_, exec_loadState hp⟩
  simp only [bytesFromVec_loadVectors hp]
  exact payloadParts_append hp

/-- Settles O37: READ_STATE only adds its response. -/
theorem readStateReturnsTheImages : Obligations.ReadStateReturnsTheImages := by
  intro s
  rw [exec_readState, bytesFromState_eq]
  rfl

end Machine
end Sys2Proof
end

section
/-! PROOF. What a step does when reset is not asserted: nothing, the outstanding SEED, or the transaction at the port
(R52, R65, R67, R130). -/

namespace Sys2Proof

theorem decode_wrongPayloadLength {W : Nat} {t : Transaction} {i : Instr} (h : decodeWord t.cmd t.payload = some i)
    (hp : t.payload.length ≠ i.payloadSize W) : decode W t = .wrongPayloadLength := by
  simp [decode, h, hp]

namespace Machine

/-! ### The three cases of a step without reset -/

theorem step_of_not_reset {s : State} (h : s.resetIn.headD false = false) : step s = cycle s.popReset :=
  if_neg (Bool.eq_false_iff.mp h)

theorem popReset_eq_self {s : State} (h : s.resetIn = []) : s.popReset = s := by
  cases s
  cases h
  rfl

theorem step_held {s : State} {p : SeedProgress} (h : s.resetIn.headD false = false)
    (hp : s.block.seedProgress = some p) : step s = seedRun p.vec.remaining s.popReset := by
  simp [step_of_not_reset h, cycle, hp]

theorem step_idle {s : State} (h : s.resetIn.headD false = false) (hn : s.block.seedProgress = none)
    (hh : s.host = []) : step s = .next s.popReset := by
  simp [step_of_not_reset h, cycle, hn, hh]

theorem step_transaction {s : State} {t : Transaction} {rest : List Transaction} (h : s.resetIn.headD false = false)
    (hn : s.block.seedProgress = none) (hh : s.host = t :: rest) :
    step s = issue t { s with host := rest, resetIn := s.resetIn.tail } := by
  simp [step_of_not_reset h, cycle, hn, hh, State.popReset]

/-! ### The three answers of the command port -/

theorem issue_command {s : State} {t : Transaction} {i : Instr} (h : decode s.block.lanes t = .command i) :
    issue t s = exec i s := by
  simp [issue, h]

theorem issue_illegalCommand {s : State} {t : Transaction} {cmd : U64}
    (h : decode s.block.lanes t = .illegalCommand cmd) : issue t s = .next s.raiseIllegal := by
  simp [issue, h]

theorem issue_wrongPayloadLength {s : State} {t : Transaction} (h : decode s.block.lanes t = .wrongPayloadLength) :
    issue t s = .refused .wrongPayloadLength := by
  simp [issue, h]

/-! ### The statements -/

/-- Settles O43: the port runs the command it decodes. -/
theorem stepRunsTheDecodedCommand : Obligations.StepRunsTheDecodedCommand := by
  intro s t rest i hr hn hh hd
  rw [step_transaction hr hn hh]
  exact issue_command hd

/-- Settles O45: a legal word with the wrong payload length is no command, and the port refuses it. -/
theorem wrongPayloadLengthIsRefused : Obligations.WrongPayloadLengthIsRefused := by
  intro s t rest i hr hn hh hw hp
  rw [step_transaction hr hn hh]
  exact issue_wrongPayloadLength (decode_wrongPayloadLength hw hp)

/-- Settles O46: a step without a command only uses up the reset sample. -/
theorem nothingHappensBetweenCommands : Obligations.NothingHappensBetweenCommands :=
  fun _ hr hn hh => step_idle hr hn hh

end Machine
end Sys2Proof
end

section
/-! PROOF. A SEED that waits on the entropy port: it takes no command (R130, R133), and the wait changes nothing (R101,
R102). -/

namespace Sys2Proof.Machine

/-- Settles O35: the step goes on with the SEED, which holds at one of its vectors or ends with its response. -/
theorem heldSeedTakesNoCommand : Obligations.HeldSeedTakesNoCommand := by
  intro s t hheld hr h
  obtain ⟨p, hp⟩ := Option.ne_none_iff_exists'.mp hheld
  rw [step_held hr hp] at h
  have hout := seedRun_next h
  refine ⟨hout.host, ?_⟩
  obtain ⟨v, _, hprog, hbuf, hcur, hresp⟩ | ⟨cols, r, _, hsample, hresp⟩ := hout.ends
  · exact .inl ⟨by simp [hprog], hresp, hbuf, hcur⟩
  · exact .inr ⟨(sampleCore_keeps hsample).2, hresp⟩

/-- A SEED that goes on at the vector it was held at does not see that it was held. -/
theorem seedRun_holdAt (v : VecId) (vs : List VecId) (s : State) :
    seedRun (v :: vs) (s.withBlock (s.block.holdAt v)) = seedRun (v :: vs) s := rfl

/-- A SEED that finds the answers for `us` and then a step without one holds at the next vector `v`. Going on from there
is the whole sequence on the port without that step. -/
theorem seedRun_wait : ∀ {Bs : List EntropyAnswer} {us vs : List VecId} {v : VecId} {s t : State}
    {rest : List (Option EntropyAnswer)}, us.length = Bs.length → s.entropy = Bs.map some ++ none :: rest →
    seedRun (us ++ v :: vs) s = .next t →
    t.block.seedProgress = some { vec := v, loaded := t.block.cols } ∧ t.responses = s.responses ∧
      seedRun (v :: vs) t = seedRun (us ++ v :: vs) { s with entropy := Bs.map some ++ rest } := by
  intro Bs
  induction Bs with
  | nil =>
    intro us vs v s t rest hus he h
    obtain rfl := List.eq_nil_of_length_eq_zero hus
    rw [List.nil_append, seedRun_unanswered he] at h
    cases h
    exact ⟨rfl, rfl, seedRun_holdAt v vs { s with entropy := rest }⟩
  | cons B Bs ih =>
    intro us vs v s t rest hus he h
    match us, hus with
    | u :: us, hus =>
      rw [List.cons_append] at h ⊢
      by_cases hB : B.length ≤ 8 * s.block.lanes
      · rw [seedRun_answered he hB] at h
        rw [seedRun_answered (s := { s with entropy := (B :: Bs).map some ++ rest }) rfl hB]
        exact ih (Nat.succ.inj hus) rfl h
      · rw [seedRun_tooLong he hB] at h
        cases h

/-- Below four there is a vector with that index. -/
theorem exists_index_eq {n : Nat} (h : n < 4) : ∃ v : VecId, v.index = n := by
  match n, h with
  | 0, _ => exact ⟨.s0, rfl⟩
  | 1, _ => exact ⟨.s1, rfl⟩
  | 2, _ => exact ⟨.s2, rfl⟩
  | 3, _ => exact ⟨.s3, rfl⟩

/-- Settles O34: with n answers before the wait, SEED holds at vector n, and the next step goes on there. -/
theorem waitingChangesNothing : Obligations.WaitingChangesNothing := by
  intro s t Bs rest hr hBs he h
  obtain ⟨v, hv⟩ := exists_index_eq hBs
  obtain ⟨us, ws, horder, hus, hremaining⟩ := vecOrder_split v
  have hreset : t.resetIn = [] := (seedRun_next h).resetIn.trans hr
  rw [exec_seed, horder] at h ⊢
  obtain ⟨hprog, hresp, hgoesOn⟩ := seedRun_wait (hus.trans hv) he h
  refine ⟨by simp [hprog], hresp, ?_⟩
  rw [step_held (by simp [hreset]) hprog, popReset_eq_self hreset, hremaining, hgoesOn]

end Sys2Proof.Machine
end

section
/-! PROOF. Every command that ends gives one response of the shape its opcode fixes (R52, R66). -/

namespace Sys2Proof.Machine

@[simp] theorem length_bytesFromWords (ws : List U32) : (bytesFromWords ws).length = 4 * ws.length := by
  simp [bytesFromWords, List.length_flatMap, Nat.mul_comm]

/-- Settles O40, by the command. -/
theorem oneResponsePerCommand : Obligations.OneResponsePerCommand := by
  intro i s t h
  cases i with
  | seed =>
    obtain ⟨v, _, hprog, _, _, hresp⟩ | ⟨cols, r, _, _, hresp⟩ := (seedRun_next (exec_seed s ▸ h)).ends
    · exact .inl ⟨rfl, by simp [hprog], hresp⟩
    · exact .inr ⟨_, hresp, by simp⟩
  | sample max =>
    obtain ⟨r, b, _, rfl⟩ := exec_sample_next h
    exact .inr ⟨_, rfl, by simp⟩
  | step =>
    rw [exec_step] at h
    cases h
    refine .inr ⟨_, rfl, ?_⟩
    simp [Block.fw, Block.lanes]
  | loadState p =>
    obtain ⟨_, rfl⟩ := exec_loadState_next h
    exact .inr ⟨_, rfl, by simp⟩
  | readState =>
    rw [exec_readState] at h
    cases h
    refine .inr ⟨_, rfl, ?_⟩
    simp [Block.lanes]

end Sys2Proof.Machine
end

section
/-! PROOF. A host's list without SEED and without a payload of the wrong length is worked off in order, one transaction
and one response a step (R52, R66, R121, R130, R136). -/

namespace Sys2Proof

/-- What decodes to a command is well-formed (R65). -/
theorem decode_command_inv {W : Nat} {t : Transaction} {i : Instr} (h : decode W t = .command i) :
    decodeWord t.cmd t.payload = some i ∧ i.wf W = true := by
  simp only [decode] at h
  split at h
  · cases h
  · next j hj =>
    split at h
    · next hp =>
      cases h
      refine ⟨hj, ?_⟩
      obtain ⟨_, ⟨_, _, rfl⟩ | ⟨_, rfl⟩ | ⟨_, _, rfl⟩ | ⟨_, _, rfl⟩ | ⟨_, _, rfl⟩⟩ := decodeWord_cases hj
      · rfl
      · rfl
      · rfl
      · exact beq_iff_eq.mpr hp
      · rfl
    · cases h

theorem decode_illegalCommand_inv {W : Nat} {t : Transaction} {cmd : U64} (h : decode W t = .illegalCommand cmd) :
    decodeWord t.cmd t.payload = none := by
  simp only [decode] at h
  split at h
  · next hn => exact hn
  · split at h <;> cases h

namespace Machine

/-! ### One transaction -/

theorem exec_sample {max r : U32} {s : State} {b : Block} (h : s.block.sampleCore max = some (r, b)) :
    exec (.sample max) s = .next ((s.withBlock b).respond .ok r []) := by
  simp only [exec, execSample, h]

/-- Every command but SEED completes from every state of `BlockState(W)`. -/
theorem exec_completes {i : Instr} {s : State} (hs : s.block.Wf) (hw : i.wf s.block.lanes = true) (hi : i ≠ .seed) :
    ∃ t, exec i s = .next t := by
  cases i with
  | seed => exact absurd rfl hi
  | sample max =>
    obtain ⟨r, b, hb⟩ := sampleCore_answers max (hs.buf_length ▸ hs.cur_lt)
    exact ⟨_, exec_sample hb⟩
  | step => exact ⟨_, exec_step s⟩
  | loadState p => exact ⟨_, exec_loadState (beq_iff_eq.mp hw)⟩
  | readState => exact ⟨_, exec_readState s⟩

/-- The command port neither refuses the transaction nor starts a SEED with it. -/
def Answerable (W : Nat) (t : Transaction) : Prop :=
  decode W t ≠ .wrongPayloadLength ∧ decode W t ≠ .command .seed

/-- The block is in `BlockState(W)`, no SEED is outstanding, reset is not asserted in any step to come, and the host's
whole list can be answered. -/
structure Serving (s : State) : Prop where
  inv : s.Inv
  idle : s.block.seedProgress = none
  noReset : s.resetIn = []
  answerable : ∀ t ∈ s.host, Answerable s.block.lanes t

/-- From `s`, where transaction `t` is taken, to `v` the block answers it with `r`: a legal word runs its command, an
illegal one is only answered (R66, R121). -/
structure Answers (t : Transaction) (r : Response) (s v : State) : Prop where
  responses : v.responses = s.responses ++ [r]
  command : ∀ i, decodeWord t.cmd t.payload = some i → r.status = .ok ∧ exec i s = .next v
  illegal : decodeWord t.cmd t.payload = none → v = s.raiseIllegal

/-- The lists that only a step takes from, and `seedProgress`, which is SEED's. -/
structure SameSurroundings (s v : State) : Prop where
  host : v.host = s.host
  resetIn : v.resetIn = s.resetIn
  seedProgress : v.block.seedProgress = s.block.seedProgress

theorem exec_sameSurroundings {i : Instr} {s v : State} (hi : i ≠ .seed) (h : exec i s = .next v) :
    SameSurroundings s v := by
  obtain ⟨_, _, _, hprog, _, hhost, hreset⟩ := writersOfEachRegister i s v h
  exact ⟨hhost, hreset, not_imp_comm.mp hprog hi⟩

/-- A command that is not SEED answers its transaction. -/
theorem exec_answers {t : Transaction} {i : Instr} {s v : State} (hword : decodeWord t.cmd t.payload = some i)
    (hi : i ≠ .seed) (h : exec i s = .next v) : ∃ r, Answers t r s v := by
  obtain ⟨rfl, _⟩ | ⟨r, hresp, hok, _⟩ := oneResponsePerCommand i s v h
  · exact absurd rfl hi
  · refine ⟨r, hresp, fun j hj => ?_, fun hnone => ?_⟩
    · obtain rfl : i = j := Option.some.inj (hword.symm.trans hj)
      exact ⟨hok, h⟩
    · cases hword.symm.trans hnone

theorem raiseIllegal_answers {t : Transaction} (hword : decodeWord t.cmd t.payload = none) (s : State) :
    Answers t { status := .illegal, result := 0, vec := [] } s s.raiseIllegal where
  responses := rfl
  command i hi := by cases hword.symm.trans hi
  illegal _ := rfl

/-- The command port completes on an answerable transaction, and answers it. -/
theorem issue_answers {s : State} {t : Transaction} (hs : s.Inv) (ht : Answerable s.block.lanes t) :
    ∃ v r, issue t s = .next v ∧ Answers t r s v ∧ SameSurroundings s v := by
  obtain ⟨hlength, hseed⟩ := ht
  cases hd : decode s.block.lanes t with
  | command i =>
    obtain ⟨hword, hwf⟩ := decode_command_inv hd
    have hi : i ≠ .seed := by
      rintro rfl
      exact hseed hd
    obtain ⟨v, hv⟩ := exec_completes hs hwf hi
    obtain ⟨r, hr⟩ := exec_answers hword hi hv
    exact ⟨v, r, (issue_command hd).trans hv, hr, exec_sameSurroundings hi hv⟩
  | illegalCommand cmd =>
    have hword := decode_illegalCommand_inv hd
    exact ⟨_, _, issue_illegalCommand hd, raiseIllegal_answers hword s, rfl, rfl, rfl⟩
  | wrongPayloadLength => exact absurd hd hlength

/-- A step takes one transaction, answers it, and leaves a list of the same kind. -/
theorem Serving.step_answers {u : State} {t : Transaction} {rest : List Transaction} (hu : Serving u)
    (hh : u.host = t :: rest) :
    ∃ v r, step u = .next v ∧ Answers t r { u with host := rest } v ∧ v.host = rest ∧ Serving v := by
  obtain ⟨v, r, hissue, hanswers, hsame⟩ :=
    issue_answers (s := { u with host := rest }) hu.inv (hu.answerable t (by simp [hh]))
  have hstep : step u = .next v := by
    rw [step_transaction (by simp [hu.noReset]) hu.idle hh, ← hissue, hu.noReset, List.tail_nil]
  have hhost : v.host = rest := hsame.host
  have hrest : ∀ x ∈ v.host, Answerable v.block.lanes x := by
    intro x hx
    rw [laneCountNeverChanges u v hstep]
    exact hu.answerable x (by simp [hh, ← hhost, hx])
  exact ⟨v, r, hstep, hanswers, hhost, everyStepKeepsBlockWellFormed u v hu.inv hstep,
    hsame.seedProgress.trans hu.idle, hsame.resetIn.trans hu.noReset, hrest⟩

/-! ### The whole list -/

theorem run_succ {s t : State} (h : step s = .next t) (k : Nat) :
    Host.Core.run core (k + 1) s = Host.Core.run core k t := by
  have hcore : core.step s = .next t := h
  simp only [Host.Core.run, hcore]

/-- After every number of steps the transactions taken are gone and answered. By induction on the list: the first step
answers its head, and the rest of the run starts from the state after it. -/
theorem Serving.run_answers : ∀ {l : List Transaction} {s : State}, Serving s → s.host = l →
    ∃ rs : List Response, rs.length = l.length ∧
      (∀ k, k ≤ l.length → ∃ u : State, Host.Core.run core k s = .next u ∧ u.Inv ∧ u.host = l.drop k ∧
        u.responses = s.responses ++ rs.take k) ∧
      (∀ (j : Nat) (t : Transaction) (r : Response), l[j]? = some t → rs[j]? = some r →
        ∃ u v : State, Host.Core.run core j s = .next u ∧ Host.Core.run core (j + 1) s = .next v ∧
          Answers t r { u with host := l.drop (j + 1) } v) := by
  intro l
  induction l with
  | nil =>
    intro s hs hh
    refine ⟨[], rfl, fun k hk => ?_, by simp⟩
    obtain rfl := Nat.le_zero.mp hk
    exact ⟨s, rfl, hs.inv, hh, (List.append_nil _).symm⟩
  | cons x l ih =>
    intro s hs hh
    obtain ⟨v, r, hstep, hanswers, hhost, hv⟩ := hs.step_answers hh
    obtain ⟨rs, hlen, hafter, heach⟩ := ih hv hhost
    refine ⟨r :: rs, congrArg (· + 1) hlen, fun k hk => ?_, fun j t r' ht hr' => ?_⟩
    · cases k with
      | zero => exact ⟨s, rfl, hs.inv, hh, (List.append_nil _).symm⟩
      | succ k =>
        obtain ⟨u, hrun, hinv, hdrop, hresp⟩ := hafter k (Nat.le_of_succ_le_succ hk)
        exact ⟨u, (run_succ hstep k).trans hrun, hinv, hdrop, by simp [hresp, hanswers.responses]⟩
    · cases j with
      | zero =>
        cases ht
        cases hr'
        exact ⟨s, v, rfl, run_succ hstep 0, hanswers⟩
      | succ j =>
        obtain ⟨u, w, hu, hw, hans⟩ := heach j t r' ht hr'
        exact ⟨u, w, (run_succ hstep j).trans hu, (run_succ hstep (j + 1)).trans hw, hans⟩

/-- Settles O44: the run that `Serving.run_answers` describes, each answer read field by field. -/
theorem hostListIsWorkedOffInOrder : Obligations.HostListIsWorkedOffInOrder := by
  intro s hinv hidle hreset hlegal
  obtain ⟨rs, hlen, hafter, heach⟩ := Serving.run_answers ⟨hinv, hidle, hreset, hlegal⟩ rfl
  refine ⟨rs, hlen, hafter, fun j t r ht hr => ?_⟩
  obtain ⟨u, v, hu, hv, hresp, hcommand, hillegal⟩ := heach j t r ht hr
  exact ⟨u, v, hu, hv, hresp, hcommand, hillegal⟩

end Machine
end Sys2Proof
end

section
/-! PROOF. Encoding and decoding: the fields decide the command (R61, R67), a command's bytes decode to it (R62), and
what decodes to a command is its encoding (R65). -/

namespace Sys2Proof

/-! ### A word and its fields -/

theorem toNat_opcOf (cmd : U64) : (opcOf cmd).toNat = cmd.toNat % 256 := by
  simp [opcOf, BitVec.extractLsb'_toNat]

theorem toNat_rsvOf (cmd : U64) : (rsvOf cmd).toNat = cmd.toNat / 256 % 16777216 := by
  simp [rsvOf, BitVec.extractLsb'_toNat, Nat.shiftRight_eq_div_pow]

theorem toNat_immOf (cmd : U64) : (immOf cmd).toNat = cmd.toNat / 4294967296 := by
  simp [immOf, BitVec.extractLsb'_toNat, Nat.shiftRight_eq_div_pow]
  omega

/-- A command word is determined by its fields. -/
theorem eq_commandWord_iff {cmd : U64} {opc : BitVec 8} {imm : U32} :
    cmd = commandWord opc imm ↔ rsvOf cmd = 0 ∧ opcOf cmd = opc ∧ immOf cmd = imm := by
  constructor
  · rintro rfl
    simp
  · rintro ⟨hr, rfl, rfl⟩
    exact (commandWord_of_fields hr).symm

theorem toNat_commandWord (opc : BitVec 8) (imm : U32) :
    (commandWord opc imm).toNat = imm.toNat * 4294967296 + opc.toNat := by
  have ho := toNat_opcOf (commandWord opc imm)
  have hr := toNat_rsvOf (commandWord opc imm)
  have hi := toNat_immOf (commandWord opc imm)
  rw [opcOf_commandWord] at ho
  rw [rsvOf_commandWord] at hr
  rw [immOf_commandWord] at hi
  change 0 = _ at hr
  omega

/-! ### The word decides the command -/

/-- The word of a decoded command is that command's word (R61, R63). -/
theorem word_of_decodeWord {cmd : U64} {p : List Byte} {i : Instr} (h : decodeWord cmd p = some i) :
    cmd = commandWord i.opcode i.immediate := by
  rw [eq_commandWord_iff]
  obtain ⟨hr, ⟨ho, hi, rfl⟩ | ⟨ho, rfl⟩ | ⟨ho, hi, rfl⟩ | ⟨ho, hi, rfl⟩ | ⟨ho, hi, rfl⟩⟩ := decodeWord_cases h
  · exact ⟨hr, ho, hi⟩
  · exact ⟨hr, ho, rfl⟩
  · exact ⟨hr, ho, hi⟩
  · exact ⟨hr, ho, hi⟩
  · exact ⟨hr, ho, hi⟩

/-- The word of a command decodes to it, LOAD_STATE taking the payload that comes with the word. -/
theorem decodeWord_commandWord {i : Instr} {p : List Byte} (hp : ∀ q, i = .loadState q → q = p) :
    decodeWord (commandWord i.opcode i.immediate) p = some i := by
  cases i with
  | seed => simp [decodeWord, Instr.opcode, Instr.immediate]
  | sample max => simp [decodeWord, Instr.opcode, Instr.immediate]
  | step => simp [decodeWord, Instr.opcode, Instr.immediate]
  | loadState q => simp [decodeWord, Instr.opcode, Instr.immediate, hp q rfl]
  | readState => simp [decodeWord, Instr.opcode, Instr.immediate]

/-- R67's illegal list, on the fields. -/
theorem decodeWord_eq_none_iff {cmd : U64} {p : List Byte} :
    decodeWord cmd p = none ↔
      (opcOf cmd = 0 ∨ 6 ≤ (opcOf cmd).toNat ∨ rsvOf cmd ≠ 0 ∨ (immOf cmd ≠ 0 ∧ opcOf cmd ≠ 2)) := by
  constructor
  · intro h
    obtain hr | ⟨h1, h2, h3, h4, h5⟩ | hi := decodeWord_none_cases h
    · exact .inr (.inr (.inl hr))
    · have : opcOf cmd = 0 ∨ 6 ≤ (opcOf cmd).toNat := by bv_omega
      exact this.imp_right .inl
    · exact .inr (.inr (.inr hi))
  · intro hbad
    rw [Option.eq_none_iff_forall_ne_some]
    intro i h
    rw [word_of_decodeWord h] at hbad
    cases i <;> simp [Instr.opcode, Instr.immediate] at hbad

/-- A word with the number that R61 gives a command's fields is that command's word. -/
theorem decodeWord_of_toNat {cmd : U64} {p : List Byte} (i : Instr) (hp : ∀ q, i = .loadState q → q = p)
    (h : cmd.toNat = i.immediate.toNat * 4294967296 + i.opcode.toNat) : decodeWord cmd p = some i := by
  rw [BitVec.eq_of_toNat_eq (h.trans (toNat_commandWord _ _).symm)]
  exact decodeWord_commandWord hp

/-- A command without an immediate has the number of its opcode. -/
theorem decodeWord_of_toNat_opcode {cmd : U64} {p : List Byte} (i : Instr) (hi : i.immediate = 0)
    (hp : ∀ q, i = .loadState q → q = p) (h : cmd.toNat = i.opcode.toNat) : decodeWord cmd p = some i :=
  decodeWord_of_toNat i hp (by simpa [hi] using h)

/-- Settles O9: the fields are read as numbers, and the illegal list is the one `decodeWord_eq_none_iff` gives. -/
theorem decodeFollowsTheFields : Obligations.DecodeFollowsTheFields := by
  intro cmd p
  refine ⟨?_, decodeWord_of_toNat_opcode .seed rfl (by simp), fun max => decodeWord_of_toNat (.sample max) (by simp),
    decodeWord_of_toNat_opcode .step rfl (by simp), decodeWord_of_toNat_opcode (.loadState p) rfl (by simp),
    decodeWord_of_toNat_opcode .readState rfl (by simp)⟩
  rw [decodeWord_eq_none_iff]
  simp only [ne_eq, ← BitVec.toNat_inj, toNat_opcOf, toNat_rsvOf, toNat_immOf, BitVec.ofNat_eq_ofNat,
    BitVec.toNat_ofNat]
  omega

/-! ### The round trip of a transaction -/

theorem decode_illegalCommand {W : Nat} {t : Transaction} (h : decodeWord t.cmd t.payload = none) :
    decode W t = .illegalCommand t.cmd := by
  simp [decode, h]

/-- A well-formed command's transaction decodes to it. -/
theorem decode_encode {W : Nat} {i : Instr} (h : i.wf W = true) : decode W (encode i) = .command i := by
  cases i with
  | seed => exact Laws.DecodeEncode.seed W h
  | sample max => exact Laws.DecodeEncode.sample max W h
  | step => exact Laws.DecodeEncode.step W h
  | loadState p => exact Laws.DecodeEncode.loadState p W h
  | readState => exact Laws.DecodeEncode.readState W h

/-- The bytes of a transaction decode as the transaction does. -/
theorem decodeBytes_bytesOfTransaction (W : Nat) (t : Transaction) :
    decodeBytes W (bytesOfTransaction t) = .transaction (decode W t) := by
  simp [decodeBytes, transactionOfBytes_bytesOfTransaction]

/-- Settles O6: the bytes give the transaction back, and the transaction its command. -/
theorem bytesOfCommandDecodeToIt : Obligations.BytesOfCommandDecodeToIt := by
  intro W i h
  rw [encodeBytes, decodeBytes_bytesOfTransaction, decode_encode h]

/-- The payload of a transaction that decodes to a command has the length the opcode fixes (R65). -/
theorem length_payload_of_decode {W : Nat} {t : Transaction} {i : Instr} (h : decode W t = .command i) :
    t.payload.length = i.payloadSize W := by
  by_contra hne
  rw [decode_wrongPayloadLength (decode_command_inv h).1 hne] at h
  cases h

/-- A payload of the length the opcode fixes is the command's own: LOAD_STATE takes it, the others have none. -/
theorem payload_of_decodeWord {W : Nat} {cmd : U64} {p : List Byte} {i : Instr} (h : decodeWord cmd p = some i)
    (hp : p.length = i.payloadSize W) : i.payload = p := by
  obtain ⟨_, ⟨_, _, rfl⟩ | ⟨_, rfl⟩ | ⟨_, _, rfl⟩ | ⟨_, _, rfl⟩ | ⟨_, _, rfl⟩⟩ := decodeWord_cases h
  · exact (List.eq_nil_of_length_eq_zero hp).symm
  · exact (List.eq_nil_of_length_eq_zero hp).symm
  · exact (List.eq_nil_of_length_eq_zero hp).symm
  · rfl
  · exact (List.eq_nil_of_length_eq_zero hp).symm

/-- Settles O7: word and payload are the command's own. -/
theorem decodedTransactionIsItsEncoding : Obligations.DecodedTransactionIsItsEncoding := by
  intro W t i h
  obtain ⟨hword, hwf⟩ := decode_command_inv h
  refine ⟨hwf, ?_⟩
  rw [encode, ← word_of_decodeWord hword, payload_of_decodeWord hword (length_payload_of_decode h)]

/-! ### The spec's examples -/

/-- Settles O10: the legal words are the encodings of their commands, the illegal ones are on R67's list, and the two lines
are assembled by evaluation. -/
theorem specWordsDecode : Obligations.SpecWordsDecode :=
  ⟨decode_encode (i := .seed) rfl, decode_encode (i := .sample 20) rfl, decode_encode (i := .sample 32767) rfl,
    decode_encode (i := .sample 0) rfl, decode_encode (i := .sample 0xFFFFFFFF) rfl, decode_encode (i := .step) rfl,
    decode_encode (i := .loadState (List.replicate 32 0)) rfl, decode_encode (i := .readState) rfl,
    decode_illegalCommand (decodeWord_eq_none_iff.mpr (by decide)),
    decode_illegalCommand (decodeWord_eq_none_iff.mpr (by decide)),
    decode_illegalCommand (decodeWord_eq_none_iff.mpr (by decide)), by decide, by decide⟩

end Sys2Proof
end

section
/-! PROOF. The match and mask table and the decoder select the same command (R64). -/

namespace Sys2Proof

/-- R64's patterns are the words of R61 with the row's opcode and an immediate of 0. -/
theorem opcodeRows_eq : opcodeRows =
    [⟨"SEED", commandWord 1 0, 0xFFFFFFFFFFFFFFFF⟩, ⟨"SAMPLE", commandWord 2 0, 0x00000000FFFFFFFF⟩,
      ⟨"STEP", commandWord 3 0, 0xFFFFFFFFFFFFFFFF⟩, ⟨"LOAD_STATE", commandWord 4 0, 0xFFFFFFFFFFFFFFFF⟩,
      ⟨"READ_STATE", commandWord 5 0, 0xFFFFFFFFFFFFFFFF⟩] := by
  decide

/-- A row whose mask keeps every bit selects its pattern alone. -/
theorem rowMatches_fullMask (cmd pattern : U64) (name : String) :
    rowMatches cmd ⟨name, pattern, 0xFFFFFFFFFFFFFFFF⟩ = true ↔ cmd = pattern := by
  have hmask : cmd &&& 0xFFFFFFFFFFFFFFFF = cmd := BitVec.and_allOnes
  rw [rowMatches, hmask, beq_iff_eq]

/-- A row whose mask keeps the low half selects the words of its opcode with RSV = 0, whatever IMM is. -/
theorem rowMatches_lowMask (cmd : U64) (opc : BitVec 8) (name : String) :
    rowMatches cmd ⟨name, commandWord opc 0, 0x00000000FFFFFFFF⟩ = true ↔ ∃ imm, cmd = commandWord opc imm := by
  have hopc : opcOf (cmd &&& 0x00000000FFFFFFFF) = opcOf cmd := by
    rw [opcOf, BitVec.extractLsb'_and]
    exact BitVec.and_allOnes
  have hrsv : rsvOf (cmd &&& 0x00000000FFFFFFFF) = rsvOf cmd := by
    rw [rsvOf, BitVec.extractLsb'_and]
    exact BitVec.and_allOnes
  have himm : immOf (cmd &&& 0x00000000FFFFFFFF) = 0 := by
    rw [immOf, BitVec.extractLsb'_and]
    exact BitVec.and_zero
  rw [rowMatches, beq_iff_eq, eq_commandWord_iff, hopc, hrsv, himm]
  simp [eq_commandWord_iff]

/-- A row's word decodes to a command. -/
theorem exists_decodeWord_of_rowMatches {cmd : U64} {r : OpcodeRow} (p : List Byte) (hr : r ∈ opcodeRows)
    (h : rowMatches cmd r = true) : ∃ i, decodeWord cmd p = some i := by
  simp only [opcodeRows_eq, List.mem_cons, List.not_mem_nil, or_false] at hr
  obtain rfl | rfl | rfl | rfl | rfl := hr
  · obtain rfl := (rowMatches_fullMask _ _ _).mp h
    exact ⟨.seed, decodeWord_commandWord (i := .seed) (by simp)⟩
  · obtain ⟨max, rfl⟩ := (rowMatches_lowMask _ 2 _).mp h
    exact ⟨.sample max, decodeWord_commandWord (i := .sample max) (by simp)⟩
  · obtain rfl := (rowMatches_fullMask _ _ _).mp h
    exact ⟨.step, decodeWord_commandWord (i := .step) (by simp)⟩
  · obtain rfl := (rowMatches_fullMask _ _ _).mp h
    exact ⟨.loadState p, decodeWord_commandWord (i := .loadState p) (by simp)⟩
  · obtain rfl := (rowMatches_fullMask _ _ _).mp h
    exact ⟨.readState, decodeWord_commandWord (i := .readState) (by simp)⟩

/-- SAMPLE's word matches the row of SAMPLE for every `max`, and differs from every other row's pattern in the opcode. -/
theorem rowMatches_sample (max : U32) :
    ∀ r ∈ opcodeRows, rowMatches (commandWord 2 max) r = (r.mnemonic == "SAMPLE") := by
  have hother (opc : BitVec 8) (name : String) (hopc : (2 : BitVec 8) ≠ opc) :
      rowMatches (commandWord 2 max) ⟨name, commandWord opc 0, 0xFFFFFFFFFFFFFFFF⟩ = false := by
    rw [Bool.eq_false_iff, ne_eq, rowMatches_fullMask, eq_commandWord_iff, opcOf_commandWord]
    exact fun ⟨_, heq, _⟩ => hopc heq
  simp only [opcodeRows_eq, List.forall_mem_cons]
  exact ⟨hother 1 _ (by decide), (rowMatches_lowMask _ 2 _).mpr ⟨max, rfl⟩, hother 3 _ (by decide),
    hother 4 _ (by decide), hother 5 _ (by decide), by simp⟩

/-- The word of a command matches its own row and no other. -/
theorem rowMatches_of_decodeWord {cmd : U64} {p : List Byte} {i : Instr} (h : decodeWord cmd p = some i) :
    ∀ r ∈ opcodeRows, rowMatches cmd r = (r.mnemonic == i.mnemonic) := by
  rw [word_of_decodeWord h]
  cases i with
  | seed => exact (by decide : ∀ r ∈ opcodeRows, rowMatches (commandWord 1 0) r = (r.mnemonic == "SEED"))
  | sample max => exact rowMatches_sample max
  | step => exact (by decide : ∀ r ∈ opcodeRows, rowMatches (commandWord 3 0) r = (r.mnemonic == "STEP"))
  | loadState q => exact (by decide : ∀ r ∈ opcodeRows, rowMatches (commandWord 4 0) r = (r.mnemonic == "LOAD_STATE"))
  | readState => exact (by decide : ∀ r ∈ opcodeRows, rowMatches (commandWord 5 0) r = (r.mnemonic == "READ_STATE"))

/-- Every command has one row. -/
theorem filter_opcodeRows_mnemonic (i : Instr) :
    ∃ r, opcodeRows.filter (fun r => r.mnemonic == i.mnemonic) = [r] := by
  cases i <;> exact ⟨_, rfl⟩

/-- No row selects an illegal word: a row's word decodes. -/
theorem filter_rowMatches_of_none {cmd : U64} {p : List Byte} (h : decodeWord cmd p = none) :
    opcodeRows.filter (rowMatches cmd) = [] := by
  rw [List.filter_eq_nil_iff]
  intro r hr hmatch
  obtain ⟨i, hi⟩ := exists_decodeWord_of_rowMatches p hr hmatch
  cases h.symm.trans hi

/-- One row selects a legal word. -/
theorem filter_rowMatches_of_some {cmd : U64} {p : List Byte} {i : Instr} (h : decodeWord cmd p = some i) :
    ∃ r, opcodeRows.filter (rowMatches cmd) = [r] := by
  rw [List.filter_congr (rowMatches_of_decodeWord h)]
  exact filter_opcodeRows_mnemonic i

/-- Settles O8: the rows that select a word are none for an illegal word and the one of its command for any other. -/
theorem decoderAgreesWithMatchAndMask : Obligations.DecoderAgreesWithMatchAndMask := by
  refine ⟨fun cmd p i => rowMatches_of_decodeWord, fun cmd p => ?_, fun cmd => ?_⟩
  · have hfilter : (∀ r ∈ opcodeRows, rowMatches cmd r = false) ↔ opcodeRows.filter (rowMatches cmd) = [] := by
      simp only [List.filter_eq_nil_iff, Bool.not_eq_true]
    rw [hfilter]
    cases h : decodeWord cmd p with
    | none => exact iff_of_true rfl (filter_rowMatches_of_none h)
    | some i =>
      obtain ⟨r, hrow⟩ := filter_rowMatches_of_some h
      simp [hrow]
  · cases h : decodeWord cmd [] with
    | none => simp [filter_rowMatches_of_none h]
    | some i =>
      obtain ⟨r, hrow⟩ := filter_rowMatches_of_some h
      simp [hrow]

end Sys2Proof
end

section
/-! PROOF. An illegal word at the port (R66, R67, R121), and where a step can stop (R65, R100, R120). -/

namespace Sys2Proof.Machine

/-- Settles O42: a word of R67's illegal list decodes to no command whatever its payload is, and the port only answers. -/
theorem illegalCommandOnlyResponds : Obligations.IllegalCommandOnlyResponds := by
  refine ⟨rfl, fun s t rest hr hn hh hbad => ?_⟩
  rw [step_transaction hr hn hh]
  exact issue_illegalCommand (decode_illegalCommand (decodeWord_eq_none_iff.mpr hbad))

/-! ### Where a step can stop -/

/-- The entropy port shows an answer with more bytes than SEED asks for (R100). -/
def ShowsTooLongAnswer (s : State) : Prop := ∃ B, some B ∈ s.entropy ∧ 8 * s.block.lanes < B.length

/-- The SEED sequence is refused only at an answer that is too long. An answer it takes leaves the later ones, and the
lane count, as they are. -/
theorem seedRun_refused : ∀ {vs : List VecId} {s : State} {r : Refusal}, seedRun vs s = .refused r →
    r = .entropyAnswerTooLong ∧ ShowsTooLongAnswer s := by
  intro vs
  induction vs with
  | nil =>
    intro s r h
    rw [seedRun_nil] at h
    obtain ⟨_, hf⟩ | ⟨_, _, _, hf⟩ := finishSeed_cases s
    · cases hf.symm.trans h
    · cases hf.symm.trans h
  | cons v vs ih =>
    intro s r h
    match he : s.entropy with
    | [] => cases (seedRun_empty he).symm.trans h
    | none :: rest => cases (seedRun_unanswered he).symm.trans h
    | some B :: rest =>
      by_cases hB : B.length ≤ 8 * s.block.lanes
      · rw [seedRun_answered he hB] at h
        obtain ⟨hr, B', hmem, hlong⟩ := ih h
        have hl : (entropyLoad v B s.block.cols).length = s.block.lanes := length_entropyLoad v hB
        exact ⟨hr, B', by simp [he, hmem], hl ▸ hlong⟩
      · cases (seedRun_tooLong he hB).symm.trans h
        exact ⟨rfl, B, by simp [he], Nat.lt_of_not_le hB⟩

/-- SEED, new or resumed, answers a next state or stops at an answer that is too long. -/
theorem seedRun_ends {s : State} (hs : s.block.Wf) (vs : List VecId) :
    (∃ t, seedRun vs s = .next t) ∨ (seedRun vs s = .refused .entropyAnswerTooLong ∧ ShowsTooLongAnswer s) := by
  cases h : seedRun vs s with
  | next t => exact .inl ⟨t, rfl⟩
  | fault f => exact absurd h (seedRun_no_fault (hs.buf_length ▸ hs.cur_lt))
  | refused r =>
    obtain ⟨rfl, hlong⟩ := seedRun_refused h
    exact .inr ⟨rfl, hlong⟩

/-- A well-formed command stops only as SEED does. -/
theorem exec_ends {i : Instr} {s : State} (hs : s.block.Wf) (hw : i.wf s.block.lanes = true) :
    (∃ t, exec i s = .next t) ∨ (exec i s = .refused .entropyAnswerTooLong ∧ ShowsTooLongAnswer s) := by
  by_cases hi : i = .seed
  · subst hi
    exact seedRun_ends hs vecOrder
  · exact .inl (exec_completes hs hw hi)

/-- The command port stops as a command does, or at a payload of the wrong length. -/
theorem issue_ends {s : State} (hs : s.block.Wf) (t : Transaction) :
    (∃ u, issue t s = .next u) ∨ (issue t s = .refused .entropyAnswerTooLong ∧ ShowsTooLongAnswer s) ∨
      (issue t s = .refused .wrongPayloadLength ∧ decode s.block.lanes t = .wrongPayloadLength) := by
  cases hd : decode s.block.lanes t with
  | command i =>
    rw [issue_command hd]
    exact (exec_ends hs (decode_command_inv hd).2).imp_right .inl
  | illegalCommand cmd => exact .inl ⟨_, issue_illegalCommand hd⟩
  | wrongPayloadLength => exact .inr (.inr ⟨issue_wrongPayloadLength hd, rfl⟩)

/-- The transaction that the port takes next, no SEED being outstanding, has a payload of the wrong length (R65). -/
def ShowsWrongPayload (s : State) : Prop :=
  s.block.seedProgress = none ∧ ∃ t rest, s.host = t :: rest ∧ decode s.block.lanes t = .wrongPayloadLength

/-- A step from a state of `BlockState(W)` answers a next state, or its surroundings break the interface. -/
theorem step_ends {s : State} (hs : s.Inv) :
    (∃ t, step s = .next t) ∨ (step s = .refused .entropyAnswerTooLong ∧ ShowsTooLongAnswer s) ∨
      (step s = .refused .wrongPayloadLength ∧ ShowsWrongPayload s) := by
  cases hr : s.resetIn.headD false with
  | true => exact .inl ⟨_, if_pos hr⟩
  | false =>
    cases hp : s.block.seedProgress with
    | some p =>
      rw [step_held hr hp]
      exact (seedRun_ends (s := s.popReset) hs _).imp_right .inl
    | none =>
      cases hh : s.host with
      | nil => exact .inl ⟨_, step_idle hr hp hh⟩
      | cons t rest =>
        rw [step_transaction hr hp hh]
        exact (issue_ends (s := { s with host := rest, resetIn := s.resetIn.tail }) hs t).imp_right
          (Or.imp_right fun ⟨hrefused, hd⟩ => ⟨hrefused, hp, t, rest, hh, hd⟩)

/-- Settles O4: `step_ends` leaves no fault, and for a refusal one of the two breaches of the interface. -/
theorem stopsOnlyAtTheInterface : Obligations.StopsOnlyAtTheInterface := by
  intro s hs
  obtain ⟨t, hstep⟩ | ⟨hstep, hlong⟩ | ⟨hstep, hidle, hpayload⟩ := step_ends hs
  · simp [hstep]
  · refine ⟨by simp [hstep], fun r hr => .inr ?_⟩
    cases hstep.symm.trans hr
    exact ⟨rfl, hlong⟩
  · refine ⟨by simp [hstep], fun r hr => .inl ?_⟩
    cases hstep.symm.trans hr
    exact ⟨rfl, hidle, hpayload⟩

end Sys2Proof.Machine
end

section
/-! PROOF. The words of `Split` (R81), the closed form of the round (R82), and STEP: what it writes and returns (R80,
R85), and what it takes out of the stream of refills (R91, R147). -/

namespace Sys2Proof.Machine

/-! ### Split -/

@[simp] theorem split_nil : split [] = [] := rfl

@[simp] theorem split_cons (r : U64) (rs : List U64) :
    split (r :: rs) = r.extractLsb' 0 32 :: r.extractLsb' 32 32 :: split rs := rfl

/-- A lane gives two words, so word j + 2 of a list is word j of its tail. -/
theorem getElem?_split (rs : List U64) (j : Nat) :
    (split rs)[j]? = rs[j / 2]?.map fun r => if j % 2 = 0 then r.extractLsb' 0 32 else r.extractLsb' 32 32 := by
  induction rs generalizing j with
  | nil => simp
  | cons r rs ih =>
    match j with
    | 0 => rfl
    | 1 => rfl
    | j + 2 => simp [ih]

/-- Settles O13. -/
theorem splitHalfOrder : Obligations.SplitHalfOrder := fun rs => ⟨length_split rs, getElem?_split rs⟩

/-! ### The closed form of the round -/

/-- R13's rotate is the library's, for the places that R13 allows. -/
theorem rotl64_eq_rotateLeft (x : U64) {n : Nat} (hn : n < 64) : rotl64 x n = x.rotateLeft n := by
  rw [BitVec.rotateLeft_def, Nat.mod_eq_of_lt hn]
  rfl

/-- The line for s1 reads the s2 just written, and the line for s0 the s3 just written; from the old values both are the
same three terms. -/
theorem stepColumn_eq_closed (c : Column) : stepColumn c = stepColumnClosed c := by
  have hs0 : c.s0 ^^^ (c.s3 ^^^ c.s1) = c.s0 ^^^ c.s3 ^^^ c.s1 := (BitVec.xor_assoc ..).symm
  have hs1 : c.s1 ^^^ (c.s2 ^^^ c.s0) = c.s1 ^^^ c.s2 ^^^ c.s0 := (BitVec.xor_assoc ..).symm
  rw [stepColumnClosed, ← hs0, ← hs1]
  rfl

/-- Settles O15. -/
theorem stepClosedForm : Obligations.StepClosedForm := by
  intro c
  rw [stepColumn_eq_closed, stepColumnClosed, rotl64_eq_rotateLeft _ (by decide)]

/-! ### What STEP writes and returns -/

/-- Words 2k and 2k+1 of a round's output are the halves of lane k's sum. -/
theorem stepWords_of_lane {cols : List Column} {k : Nat} {c : Column} (h : cols[k]? = some c) :
    (stepWords cols)[2 * k]? = some ((c.s0 + c.s3).extractLsb' 0 32) ∧
      (stepWords cols)[2 * k + 1]? = some ((c.s0 + c.s3).extractLsb' 32 32) := by
  have hlow : 2 * k / 2 = k := by omega
  have hhigh : (2 * k + 1) / 2 = k := by omega
  simp [stepWords, getElem?_split, hlow, hhigh, h, stepColumn]

/-- Settles O17: the vectors and the words are those of one round, and each lane of them is that lane's. -/
theorem stepRunsOneRoundOnEveryLane : Obligations.StepRunsOneRoundOnEveryLane := by
  intro s
  refine ⟨stepCols s.block.cols, stepWords s.block.cols, length_stepCols _, length_stepWords _,
    fun k c c' hc hc' => ?_, exec_step s⟩
  obtain ⟨hlow, hhigh⟩ := stepWords_of_lane hc
  have hround : (stepColumn c).2 = c' := by simpa [getElem?_stepCols, hc] using hc'
  subst hround
  exact ⟨hlow, hhigh, rfl, rfl, rfl, rfl⟩

/-! ### STEP before a refill -/

/-- SAMPLE at the refill boundary maps the stale word and refills (R91, R95). -/
theorem exec_sample_refill {s : State} {value : U32} (max : U32) (h : s.block.cur = s.block.fw - 1)
    (hv : s.block.buf[s.block.cur]? = some value) :
    exec (.sample max) s = .next ((s.withBlock (refilled s.block)).respond .ok (rangeMap value max) []) :=
  exec_sample (sampleCore_refill max h hv)

/-- Settles O26: STEP leaves BUF, CUR and the lane count, so the SAMPLE after it is still at the boundary and reads the
same stale word. -/
theorem stepBeforeRefillRemovesOneRound : Obligations.StepBeforeRefillRemovesOneRound := by
  intro s max hs hcur
  obtain ⟨value, hvalue⟩ : ∃ value, s.block.buf[s.block.cur]? = some value :=
    ⟨_, List.getElem?_eq_getElem (hs.buf_length ▸ hs.cur_lt)⟩
  have hstep := exec_step s
  have hlanes := exec_lanes hstep
  refine ⟨_, _, value, _, hstep, exec_sample_refill max ?_ hvalue, hcur ▸ hvalue, rfl, List.append_assoc ..⟩
  rw [Block.fw, hlanes]
  exact hcur

end Sys2Proof.Machine
end

section
/-! PROOF. RangeMap (R90): its value, its range, and how many values it maps to each result. -/

namespace Sys2Proof.Machine

/-- The product is at most (2^32-1)^2, so its high word is below 2^32-1 and the added 1 does not wrap. -/
theorem toNat_rangeMap (value max : U32) : (rangeMap value max).toNat = value.toNat * max.toNat / 2 ^ 32 + 1 := by
  have hprod : value.toNat * max.toNat ≤ (2 ^ 32 - 1) * (2 ^ 32 - 1) :=
    Nat.mul_le_mul (Nat.le_pred_of_lt value.isLt) (Nat.le_pred_of_lt max.isLt)
  simp only [rangeMap, BitVec.ofNat_eq_ofNat, BitVec.toNat_add, BitVec.extractLsb'_toNat, BitVec.toNat_mul,
    BitVec.toNat_setWidth, Nat.mul_mod_mod, Nat.mod_mul_mod, Nat.shiftRight_eq_div_pow, BitVec.toNat_ofNat]
  omega

/-- At most max - 1 is added to 1, because value < 2^32. -/
theorem toNat_rangeMap_le {value max : U32} (h : 1 ≤ max.toNat) : (rangeMap value max).toNat ≤ max.toNat := by
  have hlt : value.toNat * max.toNat / 2 ^ 32 < max.toNat :=
    Nat.div_lt_of_lt_mul (Nat.mul_lt_mul_of_pos_right value.isLt h)
  rw [toNat_rangeMap]
  exact hlt

theorem rangeMap_max_zero (value : U32) : rangeMap value 0 = 1 :=
  BitVec.eq_of_toNat_eq (by simp [toNat_rangeMap])

theorem rangeMap_value_zero (max : U32) : rangeMap 0 max = 1 :=
  BitVec.eq_of_toNat_eq (by simp [toNat_rangeMap])

/-- Settles O20: all four clauses are about the quotient that `toNat_rangeMap` gives. -/
theorem rangeMapProperties : Obligations.RangeMapProperties := by
  refine ⟨toNat_rangeMap, fun value max hmax => ⟨?_, toNat_rangeMap_le hmax⟩, rangeMap_max_zero, fun v v' max hv => ?_⟩
  · rw [toNat_rangeMap]
    exact Nat.le_add_left ..
  · rw [toNat_rangeMap, toNat_rangeMap]
    exact Nat.succ_le_succ (Nat.div_le_div_right (Nat.mul_le_mul_right _ hv))

/-- The values below 2^32 that give r are those from ceil((r-1) 2^32 / max) up to ceil(r 2^32 / max), this one excluded. -/
theorem toNat_rangeMap_eq_iff {max : U32} {r v : Nat} (hr : 1 ≤ r) (hmax : 0 < max.toNat) (hv : v < 2 ^ 32) :
    (rangeMap (BitVec.ofNat 32 v) max).toNat = r ↔
      (r - 1) * 2 ^ 32 ⌈/⌉ max.toNat ≤ v ∧ v < r * 2 ^ 32 ⌈/⌉ max.toNat := by
  rw [toNat_rangeMap, BitVec.toNat_ofNat, Nat.mod_eq_of_lt hv, ceilDiv_le_iff_le_mul hmax, ← not_le,
    ceilDiv_le_iff_le_mul hmax, Nat.mul_comm max.toNat v]
  omega

/-- Settles O21: the values that give r are an interval, and r ≤ max keeps it below 2^32. -/
theorem rangeMapPreimageCount : Obligations.RangeMapPreimageCount := by
  intro max r hr hrmax
  have hmax : 0 < max.toNat := by omega
  have hend : r * 2 ^ 32 ⌈/⌉ max.toNat ≤ 2 ^ 32 :=
    (ceilDiv_le_iff_le_mul hmax).mpr (Nat.mul_le_mul_right _ hrmax)
  have hpre : ((Finset.range (2 ^ 32)).filter fun v => (rangeMap (BitVec.ofNat 32 v) max).toNat = r) =
      Finset.Ico ((r - 1) * 2 ^ 32 ⌈/⌉ max.toNat) (r * 2 ^ 32 ⌈/⌉ max.toNat) := by
    ext v
    rw [Finset.mem_filter, Finset.mem_range, Finset.mem_Ico]
    exact ⟨fun ⟨hv, h⟩ => (toNat_rangeMap_eq_iff hr hmax hv).mp h,
      fun h => have hv := h.2.trans_le hend; ⟨hv, (toNat_rangeMap_eq_iff hr hmax hv).mpr h⟩⟩
  rw [hpre, Nat.card_Ico, Nat.ceilDiv_eq_add_pred_div, Nat.ceilDiv_eq_add_pred_div]

end Sys2Proof.Machine
end

section
/-! PROOF. SAMPLE (R91, R95, R122), and the stream of words that consecutive SampleCore calls map (R92, R93, R103). -/

namespace Sys2Proof.Machine

/-! ### One SAMPLE -/

theorem Block.Wf.exists_word {b : Block} (hb : b.Wf) : ∃ value, b.buf[b.cur]? = some value :=
  ⟨_, List.getElem?_eq_getElem (hb.buf_length ▸ hb.cur_lt)⟩

/-- SAMPLE inside the buffer maps the word under the cursor and advances the cursor (R91, R95). -/
theorem exec_sample_read {s : State} {value : U32} (max : U32) (h : s.block.cur ≠ s.block.fw - 1)
    (hv : s.block.buf[s.block.cur]? = some value) :
    exec (.sample max) s = .next ((s.withBlock (advanced s.block)).respond .ok (rangeMap value max) []) :=
  exec_sample (sampleCore_read max h hv)

/-- Settles O22: at the boundary the block is `refilled`, elsewhere `advanced`. -/
theorem sampleConsumesOneWord : Obligations.SampleConsumesOneWord := by
  intro s max hs
  obtain ⟨value, hvalue⟩ := hs.exists_word
  exact ⟨value, hvalue, fun hcur => exec_sample_refill max hcur hvalue,
    fun hcur => exec_sample_read max (Nat.ne_of_lt hcur) hvalue⟩

/-! ### The zero block -/

theorem stepCols_replicate_zero (W : Nat) :
    stepCols (List.replicate W Column.zero) = List.replicate W Column.zero := by
  rw [stepCols, List.map_replicate, stepColumn_zero]

/-- The sum of a zero lane-column is 0, and so are both its halves. -/
theorem stepWords_replicate_zero (W : Nat) : stepWords (List.replicate W Column.zero) = List.replicate (2 * W) 0 := by
  have hsum : (stepColumn Column.zero).1 = 0 := by decide
  rw [stepWords, List.map_replicate, hsum]
  induction W with
  | zero => rfl
  | succ W ih =>
    rw [List.replicate_succ, split_cons, ih]
    rfl

/-- Settles O23: the word is 0, which every max maps to 1; a refill runs a round on zero lane-columns. -/
theorem unseededSampleReturnsOne : Obligations.UnseededSampleReturnsOne := by
  intro s max W hcols hbuf hcur
  have hvalue : s.block.buf[s.block.cur]? = some 0 := by simp [hbuf, hcur]
  by_cases hc : s.block.cur = s.block.fw - 1
  · have hexec := exec_sample_refill max hc hvalue
    rw [rangeMap_value_zero] at hexec
    exact ⟨_, hexec, (congrArg stepCols hcols).trans (stepCols_replicate_zero W),
      (congrArg stepWords hcols).trans (stepWords_replicate_zero W), rfl⟩
  · have hexec := exec_sample_read max hc hvalue
    rw [rangeMap_value_zero] at hexec
    exact ⟨_, hexec, hcols, hbuf, rfl⟩

/-! ### The stream of words -/

/-- What BUF holds after k refills with no other command between them. -/
def Block.fill (b : Block) : Nat → List U32
  | 0 => b.buf
  | k + 1 => stepWords (stepCols^[k] b.cols)

/-- Word p of the fills laid end to end, word 0 being the first of BUF as it is. -/
def Block.streamWord (b : Block) (p : Nat) : Option U32 :=
  (b.fill (p / b.fw))[p % b.fw]?

/-- The block once SampleCore calls have taken the cursor to word p of the stream. -/
def Block.atWord (b : Block) (p : Nat) : Block :=
  { b with cols := stepCols^[p / b.fw] b.cols, buf := b.fill (p / b.fw), cur := p % b.fw }

@[simp] theorem length_iterate_stepCols (k : Nat) (cols : List Column) : (stepCols^[k] cols).length = cols.length := by
  induction k with
  | zero => rfl
  | succ k ih => rw [Function.iterate_succ_apply', length_stepCols, ih]

@[simp] theorem fw_atWord (b : Block) (p : Nat) : (b.atWord p).fw = b.fw := by
  simp [Block.atWord, Block.fw, Block.lanes]

theorem Block.Wf.fw_pos {b : Block} (hb : b.Wf) : 0 < b.fw := Nat.zero_lt_of_lt hb.cur_lt

theorem Block.Wf.length_fill {b : Block} (hb : b.Wf) (k : Nat) : (b.fill k).length = b.fw := by
  cases k with
  | zero => exact hb.buf_length
  | succ k => simp [Block.fill, Block.fw, Block.lanes]

theorem streamWord_of_lt {b : Block} {p : Nat} (h : p < b.fw) : b.streamWord p = b.buf[p]? := by
  rw [Block.streamWord, Nat.div_eq_of_lt h, Nat.mod_eq_of_lt h, Block.fill]

theorem streamWord_fw_add {b : Block} (hb : b.Wf) (c : Nat) :
    b.streamWord (b.fw + c) = (stepWords (stepCols^[c / b.fw] b.cols))[c % b.fw]? := by
  rw [Block.streamWord, Nat.add_div_left c hb.fw_pos, Nat.add_mod_left, Block.fill]

theorem Block.Wf.exists_streamWord {b : Block} (hb : b.Wf) (p : Nat) : ∃ w, b.streamWord p = some w :=
  ⟨_, List.getElem?_eq_getElem ((Nat.mod_lt p hb.fw_pos).trans_eq (hb.length_fill _).symm)⟩

theorem Block.Wf.atWord_cur {b : Block} (hb : b.Wf) : b.atWord b.cur = b := by
  rw [Block.atWord, Nat.div_eq_of_lt hb.cur_lt, Nat.mod_eq_of_lt hb.cur_lt]
  rfl

/-- From the last word of a fill the next call goes to word 0 of the fill after it. -/
theorem refilled_atWord {b : Block} {p : Nat} (hb : b.Wf) (h : p % b.fw = b.fw - 1) :
    refilled (b.atWord p) = b.atWord (p + 1) := by
  have hpos := hb.fw_pos
  have hp := Nat.mod_add_div p b.fw
  obtain ⟨hdiv, hmod⟩ : (p + 1) / b.fw = p / b.fw + 1 ∧ (p + 1) % b.fw = 0 :=
    (Nat.div_mod_unique hpos).mpr ⟨by rw [Nat.mul_add_one]; omega, hpos⟩
  simp only [refilled, Block.atWord, hdiv, hmod, Function.iterate_succ_apply', Block.fill]

/-- From any other word the next call goes to the next word of the same fill. -/
theorem advanced_atWord {b : Block} {p : Nat} (hb : b.Wf) (h : p % b.fw ≠ b.fw - 1) :
    advanced (b.atWord p) = b.atWord (p + 1) := by
  have hpos := hb.fw_pos
  have hlt := Nat.mod_lt p hpos
  have hp := Nat.mod_add_div p b.fw
  obtain ⟨hdiv, hmod⟩ : (p + 1) / b.fw = p / b.fw ∧ (p + 1) % b.fw = p % b.fw + 1 :=
    (Nat.div_mod_unique hpos).mpr ⟨by omega, by omega⟩
  simp only [advanced, Block.atWord, hdiv, hmod]

/-- A SampleCore call maps the word of the stream that the cursor is on and goes to the next one (R91). -/
theorem sampleCore_atWord {b : Block} (hb : b.Wf) {p : Nat} {w : U32} (hw : b.streamWord p = some w) (max : U32) :
    (b.atWord p).sampleCore max = some (rangeMap w max, b.atWord (p + 1)) := by
  by_cases h : p % b.fw = b.fw - 1
  · rw [← refilled_atWord hb h]
    exact sampleCore_refill max (h.trans (congrArg (· - 1) (fw_atWord b p).symm)) hw
  · rw [← advanced_atWord hb h]
    exact sampleCore_read max (by rwa [fw_atWord]) hw

/-! ### Consecutive calls -/

theorem sampleCalls_cons {b b' b'' : Block} {max r : U32} {maxes rs : List U32} (h : b.sampleCore max = some (r, b'))
    (hrest : sampleCalls maxes b' = some (rs, b'')) : sampleCalls (max :: maxes) b = some (r :: rs, b'') := by
  simp only [sampleCalls, h, hrest]

/-- The values consecutive calls return: call c maps the stream's word c places behind word p. -/
structure MapsStream (b : Block) (p : Nat) (maxes rs : List U32) : Prop where
  length_eq : rs.length = maxes.length
  value : ∀ {c : Nat} {m : U32}, maxes[c]? = some m → ∃ w, b.streamWord (p + c) = some w ∧ rs[c]? = some (rangeMap w m)

theorem sampleCalls_atWord {b : Block} (hb : b.Wf) (maxes : List U32) (p : Nat) :
    ∃ rs, sampleCalls maxes (b.atWord p) = some (rs, b.atWord (p + maxes.length)) ∧ MapsStream b p maxes rs := by
  induction maxes generalizing p with
  | nil => exact ⟨[], rfl, rfl, by simp⟩
  | cons max maxes ih =>
    obtain ⟨w, hw⟩ := hb.exists_streamWord p
    obtain ⟨rs, hcalls, hmaps⟩ := ih (p + 1)
    rw [Nat.add_right_comm] at hcalls
    refine ⟨rangeMap w max :: rs, sampleCalls_cons (sampleCore_atWord hb hw max) hcalls,
      congrArg Nat.succ hmaps.length_eq, ?_⟩
    rintro (_ | c) m hm
    · cases hm
      exact ⟨w, hw, rfl⟩
    · obtain ⟨w', hw', hr⟩ := hmaps.value hm
      exact ⟨w', Nat.add_right_comm p 1 c ▸ hw', hr⟩

/-- Every list of SampleCore calls is answered, from the word under the cursor on. -/
theorem sampleCalls_of_wf {b : Block} (hb : b.Wf) (maxes : List U32) :
    ∃ rs, sampleCalls maxes b = some (rs, b.atWord (b.cur + maxes.length)) ∧ MapsStream b b.cur maxes rs := by
  have h := sampleCalls_atWord hb maxes b.cur
  rwa [hb.atWord_cur] at h

/-- FW words further on, the cursor is on the same place of the next fill. -/
theorem Block.Wf.atWord_cur_add_fw {b : Block} (hb : b.Wf) :
    b.atWord (b.cur + b.fw) = { b with cols := stepCols b.cols, buf := stepWords b.cols } := by
  rw [Block.atWord, Nat.add_div_right b.cur hb.fw_pos, Nat.add_mod_right, Nat.div_eq_of_lt hb.cur_lt,
    Nat.mod_eq_of_lt hb.cur_lt]
  rfl

/-- Settles O24: FW calls take the cursor from its place in BUF to the same place in the next fill. -/
theorem oneStepPerBufferCycle : Obligations.OneStepPerBufferCycle := by
  intro b maxes hb hlen
  obtain ⟨rs, hcalls, _⟩ := sampleCalls_of_wf hb maxes
  rw [hlen, hb.atWord_cur_add_fw] at hcalls
  exact ⟨rs, hcalls⟩

/-- Settles O25: call 0 maps the last word of BUF, and call c+1 word FW + c of the stream. -/
theorem consumptionOrder : Obligations.ConsumptionOrder := by
  intro b maxes hb hcur
  obtain ⟨rs, hcalls, hmaps⟩ := sampleCalls_of_wf hb maxes
  refine ⟨rs, _, hcalls, hmaps.length_eq, fun m hm => ?_, fun c m hm => ?_⟩
  · obtain ⟨w, hw, hr⟩ := hmaps.value hm
    rw [Nat.add_zero, streamWord_of_lt hb.cur_lt, hcur] at hw
    exact ⟨w, hw, hr⟩
  · obtain ⟨w, hw, hr⟩ := hmaps.value hm
    have hnext : b.cur + (c + 1) = b.fw + c := by
      have := hb.fw_pos
      omega
    rw [hnext, streamWord_fw_add hb] at hw
    exact ⟨w, hw, hr⟩

/-! ### After a re-seed -/

/-- A SEED that ends away from the refill boundary leaves BUF and advances CUR by its warm-up (R102, R103). -/
theorem seedRun_ends_off_boundary {vs : List VecId} {s t : State} (h : seedRun vs s = .next t)
    (hend : t.block.seedProgress = none) (hc : s.block.cur ≠ s.block.fw - 1) :
    t.block.buf = s.block.buf ∧ t.block.cur = s.block.cur + 1 := by
  refine ⟨seedRun_buf_off_boundary h hc, ?_⟩
  obtain ⟨v, _, hheld, _⟩ | ⟨cols, r, hl, hsample, _⟩ := (seedRun_next h).ends
  · rw [hheld] at hend
    cases hend
  · have hfw : Block.fw { s.block with cols := cols, seedProgress := none } = s.block.fw := congrArg (2 * ·) hl
    obtain ⟨_, _, _, ⟨hc', _⟩ | ⟨_, hb⟩⟩ := sampleCore_cases hsample
    · exact absurd (hc'.trans (congrArg (· - 1) hfw)) hc
    · rw [hb]
      rfl

/-- Settles O31: the calls end before the cursor leaves the old fill, which SEED did not touch. -/
theorem reseedLatency : Obligations.ReseedLatency := by
  intro s t maxes hs hcur h hend hlen
  rw [exec_seed] at h
  obtain ⟨hbuf, hcur'⟩ := seedRun_ends_off_boundary h hend (Nat.ne_of_lt hcur)
  have hfw : t.block.fw = s.block.fw := congrArg (2 * ·) (seedRun_next h).lanes
  obtain ⟨rs, hcalls, hmaps⟩ := sampleCalls_of_wf (seedRun_wf hs h) maxes
  refine ⟨hbuf, hcur', rs, _, hcalls, fun j m hm => ?_⟩
  obtain ⟨w, hw, hr⟩ := hmaps.value hm
  obtain ⟨hj, _⟩ := List.getElem?_eq_some_iff.mp hm
  rw [streamWord_of_lt (by omega), hbuf, hcur'] at hw
  exact ⟨w, hw, hr⟩

end Sys2Proof.Machine
end

section
/-! PROOF. SEED (R101 to R106): what one entropy load and a sequence of them write, how SEED ends on four answers, the
state transfer beside it (R105, R107), and the hold on a silent port (R133). -/

namespace Sys2Proof.Machine

/-! ### One entropy load -/

theorem getElem?_overlay (B img : List Byte) (b : Nat) :
    (overlay B img)[b]? = if b < B.length then B[b]? else img[b]? := by
  rw [overlay, List.getElem?_append]
  split
  · rfl
  · next hb => rw [List.getElem?_drop, Nat.add_sub_cancel' (Nat.le_of_not_lt hb)]

/-- A full answer leaves none of the old bytes. -/
theorem overlay_of_full {B img : List Byte} (h : B.length = img.length) : overlay B img = B := by
  rw [overlay, h, List.drop_length, List.append_nil]

/-- The image of the vector that is loaded: the delivered bytes over the old ones (R101). -/
theorem bytesFromVec_entropyLoad_same (v : VecId) {B : EntropyAnswer} {cols : List Column}
    (hB : B.length ≤ 8 * cols.length) :
    bytesFromVec (vecOf v (entropyLoad v B cols)) = overlay B (bytesFromVec (vecOf v cols)) := by
  rw [entropyLoad, vecOf_setVec_same v (length_loaded_vec v hB)]
  exact bytesFromVec_vecFromBytes (n := cols.length) ((length_overlay (by simpa using hB)).trans (by simp))

theorem vecOf_entropyLoad_other {v w : VecId} (hw : w ≠ v) {B : EntropyAnswer} {cols : List Column}
    (hB : B.length ≤ 8 * cols.length) : vecOf w (entropyLoad v B cols) = vecOf w cols :=
  vecOf_setVec_other hw (length_loaded_vec v hB)

/-- Settles O27: the loaded vector's image is the answer laid over the old image. -/
theorem entropyLoadKeepsUndeliveredBytes : Obligations.EntropyLoadKeepsUndeliveredBytes := by
  intro v B cols hB
  refine ⟨length_entropyLoad v hB, fun b => ?_, fun w hw => vecOf_entropyLoad_other hw hB⟩
  rw [bytesFromVec_entropyLoad_same v hB, getElem?_overlay]

/-- Two lists of columns are equal where their four images are. -/
theorem cols_ext_bytes {a b : List Column} (h : ∀ v, bytesFromVec (vecOf v a) = bytesFromVec (vecOf v b)) : a = b :=
  cols_ext fun v => by rw [← vecFromBytes_bytesFromVec (vecOf v a), h, vecFromBytes_bytesFromVec]

/-- An answer of 0 bytes changes no vector (R104). -/
@[simp] theorem entropyLoad_nil (v : VecId) (cols : List Column) : entropyLoad v [] cols = cols := by
  refine cols_ext_bytes fun w => ?_
  by_cases hw : w = v
  · subst hw
    exact bytesFromVec_entropyLoad_same w (Nat.zero_le _)
  · rw [vecOf_entropyLoad_other hw (Nat.zero_le _)]

/-! ### A sequence of entropy loads -/

theorem loadAll_cons (v : VecId) (vs : List VecId) (B : EntropyAnswer) (Bs : List EntropyAnswer) (cols : List Column) :
    loadAll (v :: vs) (B :: Bs) cols = loadAll vs Bs (entropyLoad v B cols) := rfl

/-- No answer is longer than the 8W bytes that a request asks for (R100). -/
def Fit (W : Nat) (Bs : List EntropyAnswer) : Prop := ∀ B ∈ Bs, B.length ≤ 8 * W

theorem fit_cons {W : Nat} {B : EntropyAnswer} {Bs : List EntropyAnswer} :
    Fit W (B :: Bs) ↔ B.length ≤ 8 * W ∧ Fit W Bs := List.forall_mem_cons

/-- After the first load the later answers still fit. -/
theorem fit_entropyLoad {B : EntropyAnswer} {Bs : List EntropyAnswer} {cols : List Column} (v : VecId)
    (h : Fit cols.length (B :: Bs)) : Fit (entropyLoad v B cols).length Bs := by
  obtain ⟨hB, hBs⟩ := fit_cons.mp h
  rwa [length_entropyLoad v hB]

theorem length_loadAll : ∀ {vs : List VecId} {Bs : List EntropyAnswer} {cols : List Column}, Fit cols.length Bs →
    (loadAll vs Bs cols).length = cols.length
  | [], _, _, _ => rfl
  | _ :: _, [], _, _ => rfl
  | v :: _, _ :: _, _, h =>
    (length_loadAll (fit_entropyLoad v h)).trans (length_entropyLoad v (fit_cons.mp h).1)

theorem vecOf_loadAll_of_not_mem : ∀ {vs : List VecId} {Bs : List EntropyAnswer} {cols : List Column} {w : VecId},
    Fit cols.length Bs → w ∉ vs → vecOf w (loadAll vs Bs cols) = vecOf w cols
  | [], _, _, _, _, _ => rfl
  | _ :: _, [], _, _, _, _ => rfl
  | v :: _, _ :: _, _, _, h, hw =>
    (vecOf_loadAll_of_not_mem (fit_entropyLoad v h) (List.not_mem_of_not_mem_cons hw)).trans
      (vecOf_entropyLoad_other (List.ne_of_not_mem_cons hw) (fit_cons.mp h).1)

/-- Where no vector is loaded twice, each takes its own answer over its old image. -/
theorem bytesFromVec_loadAll : ∀ {vs : List VecId} {Bs : List EntropyAnswer} {cols : List Column} {v : VecId}
    {B : EntropyAnswer}, vs.Nodup → Fit cols.length Bs → (v, B) ∈ vs.zip Bs →
    bytesFromVec (vecOf v (loadAll vs Bs cols)) = overlay B (bytesFromVec (vecOf v cols))
  | v :: vs, B :: Bs, cols, w, C, hnd, h, hmem => by
    obtain ⟨hv, hvs⟩ := List.nodup_cons.mp hnd
    have hB := (fit_cons.mp h).1
    have hBs := fit_entropyLoad v h
    rw [loadAll_cons]
    obtain heq | hlater := List.mem_cons.mp hmem
    · cases heq
      rw [vecOf_loadAll_of_not_mem hBs hv, bytesFromVec_entropyLoad_same v hB]
    · have hw : w ≠ v := fun hwv => hv (hwv ▸ (List.of_mem_zip hlater).1)
      rw [bytesFromVec_loadAll hvs hBs hlater, vecOf_entropyLoad_other hw hB]

/-- Four full answers are the payload of the vectors they load (R106). -/
theorem bytesFromState_loadAll_of_full {B0 B1 B2 B3 : EntropyAnswer} {cols : List Column}
    (hfull : ∀ B ∈ [B0, B1, B2, B3], B.length = 8 * cols.length) :
    bytesFromState (loadAll vecOrder [B0, B1, B2, B3] cols) = B0 ++ B1 ++ B2 ++ B3 := by
  have himage {v B} (hmem : (v, B) ∈ vecOrder.zip [B0, B1, B2, B3]) :
      bytesFromVec (vecOf v (loadAll vecOrder [B0, B1, B2, B3] cols)) = B := by
    rw [bytesFromVec_loadAll (by decide) (fun B hB => (hfull B hB).le) hmem]
    exact overlay_of_full (by simpa using hfull B (List.of_mem_zip hmem).2)
  rw [bytesFromState_eq, himage (v := .s0) (B := B0) (by simp [vecOrder]),
    himage (v := .s1) (B := B1) (by simp [vecOrder]), himage (v := .s2) (B := B2) (by simp [vecOrder]),
    himage (v := .s3) (B := B3) (by simp [vecOrder])]

/-! ### LOAD_STATE and READ_STATE are inverse to each other -/

theorem bytesFromState_loadVectors {p : List Byte} {cols : List Column} (h : p.length = 32 * cols.length) :
    bytesFromState (loadVectors p cols) = p := by
  simp only [bytesFromState_eq, bytesFromVec_loadVectors h, payloadParts_append h]

theorem payloadPart_bytesFromState (cols : List Column) (v : VecId) :
    payloadPart cols.length v (bytesFromState cols) = bytesFromVec (vecOf v cols) := by
  obtain ⟨pre, post, hsplit, hpre⟩ := bytesFromState_split cols v
  rw [payloadPart, hsplit, List.drop_left' hpre]
  exact List.take_left' (by simp)

/-- The payload of some columns loads just these columns, whatever was there before. -/
theorem loadVectors_bytesFromState {a cols : List Column} (h : a.length = cols.length) :
    loadVectors (bytesFromState a) cols = a := by
  refine cols_ext_bytes fun v => ?_
  rw [bytesFromVec_loadVectors (by simp [h]), ← h, payloadPart_bytesFromState]

/-- Settles O38: the response of READ_STATE is the payload of the vectors that LOAD_STATE wrote. -/
theorem readAfterLoadReturnsThePayload : Obligations.ReadAfterLoadReturnsThePayload := by
  intro s p hp
  refine ⟨_, _, exec_loadState hp, exec_readState _, rfl, ?_⟩
  simp [bytesFromState_loadVectors hp]

/-! ### SEED on four answers -/

/-- The block after the entropy loads of a SEED, before its warm-up draw (R102). -/
def Block.loadedFrom (Bs : List EntropyAnswer) (b : Block) : Block :=
  { b with cols := loadAll vecOrder Bs b.cols, seedProgress := none }

theorem fw_loadedFrom {b : Block} {Bs : List EntropyAnswer} (h : Fit b.lanes Bs) :
    (b.loadedFrom Bs).fw = b.fw :=
  congrArg (2 * ·) (length_loadAll h)

/-- The port shows an answer to each of SEED's four requests, none longer than was asked for. -/
structure ShowsAnswers (s : State) (Bs : List EntropyAnswer) (rest : List (Option EntropyAnswer)) : Prop where
  length : Bs.length = vecOrder.length
  fit : Fit s.block.lanes Bs
  entropy : s.entropy = Bs.map some ++ rest

/-- SEED on four answers is one SampleCore call on the loaded block; its value is discarded (R102). -/
theorem exec_seed_of_answers {s : State} {Bs : List EntropyAnswer} {rest : List (Option EntropyAnswer)}
    {r : U32} {b : Block} (h : ShowsAnswers s Bs rest)
    (hdraw : (s.block.loadedFrom Bs).sampleCore Config.warmUpMax = some (r, b)) :
    exec .seed s = .next (({ s with entropy := rest }.withBlock b).respond .ok 0 []) := by
  obtain ⟨hlength, hfit, hentropy⟩ := h
  rw [exec_seed, seedRun_all hlength hfit hentropy]
  obtain ⟨hnone, _⟩ | ⟨r', b', hdraw', hfinish⟩ := finishSeed_cases
    { s with block := { s.block with cols := loadAll vecOrder Bs s.block.cols }, entropy := rest }
  · cases hdraw.symm.trans hnone
  · cases hdraw.symm.trans hdraw'
    exact hfinish

/-- From a state of `BlockState(W)` the warm-up draw finds its word: the loads leave BUF and CUR. -/
theorem sampleCore_loadedFrom {b : Block} (hb : b.Wf) (Bs : List EntropyAnswer) (max : U32) :
    ∃ r b', (b.loadedFrom Bs).sampleCore max = some (r, b') :=
  sampleCore_answers max (hb.buf_length ▸ hb.cur_lt : b.cur < b.buf.length)

/-- Settles O28: the loaded block's SampleCore call is what both SEED and SAMPLE 32767 run. -/
theorem seedCompletesOnFourAnswers : Obligations.SeedCompletesOnFourAnswers := by
  intro s B0 B1 B2 B3 rest hs hn he h0 h1 h2 h3
  have hfit : Fit s.block.lanes [B0, B1, B2, B3] := by simp [Fit, h0, h1, h2, h3]
  obtain ⟨r, b, hdraw⟩ := sampleCore_loadedFrom hs [B0, B1, B2, B3] Config.warmUpMax
  have hseed := exec_seed_of_answers ⟨rfl, hfit, he⟩ hdraw
  have hloaded : s.block.loadedFrom [B0, B1, B2, B3] =
      { s.block with cols := loadAll vecOrder [B0, B1, B2, B3] s.block.cols } := by rw [Block.loadedFrom, ← hn]
  have himage {v B} (hmem : (v, B) ∈ vecOrder.zip [B0, B1, B2, B3]) := bytesFromVec_loadAll (by decide) hfit hmem
  exact ⟨_, _, length_loadAll hfit, himage (by simp [vecOrder]), himage (by simp [vecOrder]),
    himage (by simp [vecOrder]), himage (by simp [vecOrder]), exec_sample (hloaded ▸ hdraw), hseed⟩

/-- Settles O29: LOAD_STATE with the four full answers leaves the block that SEED's warm-up draw starts from. -/
theorem seedEqualsLoadStateThenSample : Obligations.SeedEqualsLoadStateThenSample := by
  intro s B0 B1 B2 B3 rest hs hn he h0 h1 h2 h3
  have hfull : ∀ B ∈ [B0, B1, B2, B3], B.length = 8 * s.block.lanes := by simp [h0, h1, h2, h3]
  have hfit : Fit s.block.lanes [B0, B1, B2, B3] := fun B hB => (hfull B hB).le
  have hloaded : { s.block with cols := loadVectors (B0 ++ B1 ++ B2 ++ B3) s.block.cols } =
      s.block.loadedFrom [B0, B1, B2, B3] := by
    rw [Block.loadedFrom, ← hn, ← bytesFromState_loadAll_of_full hfull,
      loadVectors_bytesFromState (length_loadAll hfit)]
  have hload := exec_loadState (s := s) (p := B0 ++ B1 ++ B2 ++ B3) (by simp [h0, h1, h2, h3]; omega)
  rw [hloaded] at hload
  obtain ⟨r, b, hdraw⟩ := sampleCore_loadedFrom hs [B0, B1, B2, B3] Config.warmUpMax
  exact ⟨_, _, _, exec_seed_of_answers ⟨rfl, hfit, he⟩ hdraw, hload, exec_sample hdraw, rfl⟩

/-- At CUR = FW-1 the warm-up draw refills BUF from the loaded vectors (R103 case 1). -/
theorem exec_seed_refill {s : State} {Bs : List EntropyAnswer} {rest : List (Option EntropyAnswer)}
    (h : ShowsAnswers s Bs rest) (hs : s.block.Wf) (hcur : s.block.cur = s.block.fw - 1) :
    exec .seed s =
      .next (({ s with entropy := rest }.withBlock (refilled (s.block.loadedFrom Bs))).respond .ok 0 []) := by
  obtain ⟨value, hvalue⟩ := hs.exists_word
  exact exec_seed_of_answers h (sampleCore_refill _ (hcur.trans (by rw [fw_loadedFrom h.fit])) hvalue)

/-- Settles O30: the refill is that of the loaded vectors, whose payload is the answers. -/
theorem firstSeedPrimesTheBuffer : Obligations.FirstSeedPrimesTheBuffer := by
  intro s B0 B1 B2 B3 rest hs hcur he h0 h1 h2 h3
  have hfull : ∀ B ∈ [B0, B1, B2, B3], B.length = 8 * s.block.lanes := by simp [h0, h1, h2, h3]
  have hfit : Fit s.block.lanes [B0, B1, B2, B3] := fun B hB => (hfull B hB).le
  exact ⟨_, _, bytesFromState_loadAll_of_full hfull, length_loadAll hfit,
    exec_seed_refill ⟨rfl, hfit, he⟩ hs hcur, rfl, rfl, rfl⟩

/-- Empty answers leave the reset block as it is, and its refill is zero. -/
theorem refilled_loadedFrom_resetOf (W : Nat) :
    refilled ((Block.resetOf W).loadedFrom [[], [], [], []]) = { Block.resetOf W with cur := 0 } := by
  have hcols : loadAll vecOrder [[], [], [], []] (List.replicate W Column.zero) = List.replicate W Column.zero := by
    simp [vecOrder, loadAll]
  simp [refilled, Block.loadedFrom, Block.resetOf, hcols, stepCols_replicate_zero, stepWords_replicate_zero]

/-- Settles O32: after reset the cursor is at FW-1, and the warm-up draw refills from zero. -/
theorem seedWithoutEntropyStaysZero : Obligations.SeedWithoutEntropyStaysZero := by
  intro W rest hW
  have hcur : (Block.resetOf W).cur = (Block.resetOf W).fw - 1 := by rw [Block.fw, resetOf_lanes]; rfl
  refine (exec_seed_refill (Bs := [[], [], [], []]) ⟨rfl, by simp [Fit], rfl⟩ (resetOf_wf hW) hcur).trans ?_
  simp [State.respond, State.withBlock, State.resetOf, refilled_loadedFrom_resetOf]

/-! ### SEED on a silent port -/

/-- A block that holds a SEED at `v` is unchanged by holding it there again. -/
theorem holdAt_of_held {v : VecId} {b : Block} (h : b.seedProgress = some { vec := v, loaded := b.cols }) :
    b.holdAt v = b := by
  rw [Block.holdAt, ← h]

/-- Settles O33: the first request is unanswered, and so is every one after it. -/
theorem seedHoldsOnASilentPort : Obligations.SeedHoldsOnASilentPort := by
  refine fun s he hr => ⟨seedRun_empty he, fun v hheld => ?_⟩
  obtain ⟨_, ws, _, _, hremaining⟩ := vecOrder_split v
  rw [step_held (by simp [hr]) hheld, popReset_eq_self hr, hremaining, seedRun_empty he, holdAt_of_held hheld]
  rfl

end Sys2Proof.Machine
end

section
/-! PROOF. What a step does when reset is asserted, a SEED that holds included (R123, R140, R141). -/

namespace Sys2Proof.Machine

/-- The counterpart of `step_of_not_reset`: reset hides the outstanding SEED and the command port. -/
theorem step_of_reset {s : State} (h : s.resetIn.headD false = true) : step s = .next s.popReset.takeReset :=
  if_pos h

/-- Settles O47: the step is the reset, and a reset writes only the block and uses up the reset sample. -/
theorem resetTakesPriority : Obligations.ResetTakesPriority := by
  intro s rest hr
  have hreset : s.resetIn.headD false = true := by rw [hr, List.headD_cons]
  have hsample : s.resetIn.tail = rest := by rw [hr, List.tail_cons]
  rw [step_of_reset hreset, ← hsample]
  rfl

end Sys2Proof.Machine
end
